-- ==== Sys2Proof/Word.lean ====
section
/-! DEFINITION. The data types of the core: bytes, 64-bit halves, blocks, keys, schedules and frames
(00_scope.md R6, R10, R11; 10_state.md R20 to R28). -/

namespace Sys2Proof

/-- A byte; bit 0 is the least significant (R10). -/
abbrev Byte := BitVec 8

/-- A 64-bit half of a block (R11). -/
abbrev Half := BitVec 64

/-- A block: 16 bytes (R6, R10), held as the 128-bit register whose bits `8k+7..8k` are byte `k`, so that
its low 64 bits are the left half and its high 64 bits the right half of R11. -/
abbrev Block := BitVec 128

/-- A master key: 32 bytes (R6), byte `j` in bits `8j+7..8j`. -/
abbrev MasterKey := BitVec 256

/-- A round-key schedule: exactly ten blocks (R6, R23). -/
abbrev Schedule := Vector Block 10

/-- A command or response frame: a finite byte sequence, its length known (R28, R80). -/
abbrev Frame := List Byte

/-- The status byte `ST` (R24); its fields are read and written in `Machine/Flags.lean`. -/
abbrev Status := BitVec 8

/-- A pair of 64-bit numbers, left and right: a linear-table entry (R27) or the accumulator `ACC` (R22). -/
structure Halves where
  l : Half
  r : Half
  deriving DecidableEq, Repr, Inhabited

/-- The scheduler's scratch `W[0..3]` under the names R25 and R141 give its entries. -/
structure Scratch where
  /-- `W[0]` = `L`, the left half of the Feistel state. -/
  l : Block
  /-- `W[1]` = `R`, the right half. -/
  r : Block
  /-- `W[2]` = `T`, the left half XORed with a round constant. -/
  t : Block
  /-- `W[3]` = `U`, the LS transform of `T`. -/
  u : Block
  deriving DecidableEq, Repr, Inhabited

end Sys2Proof
end

