-- ==== Sys2Proof/Machine/Operands.lean ====
section
/-! DEFINITION. Bytes, halves, blocks and the byte sequences on the wire: 00_scope.md R10, R11; 20_memory.md R51,
R52; 30_encoding.md R83, R84. -/

namespace Sys2Proof

/-- The byte positions of a block, in the order the pseudocode's `for p = 0 to 15` visits them. -/
def positions : List (Fin 16) := [0, 1, 2, 3, 4, 5, 6, 7, 8, 9, 10, 11, 12, 13, 14, 15]

/-- `B[k]`, byte `k` of a block (R10). -/
def byteAt (B : Block) (k : Fin 16) : Byte := B.extractLsb' (8 * k) 8

/-- The first `n` bytes of a register, byte 0 first: what is sent on the wire (R52). -/
def bytesOf {w : Nat} (n : Nat) (x : BitVec w) : List Byte :=
  (List.range n).map fun j => x.extractLsb' (8 * j) 8

/-- The register whose byte `j` is byte `j` of the sequence (R52, R83). -/
def ofBytes (w : Nat) : List Byte → BitVec w
  | [] => 0
  | b :: bs => b.setWidth w ||| (ofBytes w bs <<< 8)

/-- `hl(B)`: bytes 0 to 7 as a little-endian number (R11). -/
def hl (B : Block) : Half := B.extractLsb' 0 64

/-- `hr(B)`: bytes 8 to 15 as a little-endian number (R11). -/
def hr (B : Block) : Half := B.extractLsb' 64 64

/-- `blk(l, r)`, the inverse of taking the two halves (R11). -/
def blk (h : Halves) : Block := h.r ++ h.l

/-- `e(p, v)`: byte `v` at position `p` and zero elsewhere (R11). -/
def unitBlock (p : Fin 16) (v : Byte) : Block := v.setWidth 128 <<< (8 * (p : Nat))

/-- The key's bytes 0 to 15 as a block. -/
def keyLow (K : MasterKey) : Block := K.extractLsb' 0 128

/-- The key's bytes 16 to 31 as a block. -/
def keyHigh (K : MasterKey) : Block := K.extractLsb' 128 128

/-- Entry `i` of a schedule payload: its bytes `16 i` to `16 i + 15` (R83). -/
def entryOfBytes (payload : List Byte) (i : Nat) : Block := ofBytes 128 ((payload.drop (16 * i)).take 16)

/-- The ten blocks of a format S payload (R83). -/
def scheduleOfBytes (payload : List Byte) : Schedule :=
  #v[entryOfBytes payload 0, entryOfBytes payload 1, entryOfBytes payload 2, entryOfBytes payload 3,
    entryOfBytes payload 4, entryOfBytes payload 5, entryOfBytes payload 6, entryOfBytes payload 7,
    entryOfBytes payload 8, entryOfBytes payload 9]

/-- The 16 bytes of a block (R84). -/
def blockBytes (B : Block) : List Byte := bytesOf 16 B

/-- The 160 bytes of a schedule, entry 0 first (R52, R84). -/
def scheduleBytes (Q : Schedule) : List Byte := Q.toList.flatMap blockBytes

end Sys2Proof
end

