-- ==== Sys2Proof/Syntax.lean ====
section
/-! DEFINITION. The commands and the opcode map (30_encoding.md R81, R82), and the fault causes (60_exceptions.md R200). -/

namespace Sys2Proof

/-- The seven commands, one constructor per row of the opcode table. An operand's type has exactly the size its
frame format gives it (R81, R83), and every value of that type is legal. -/
inductive Instr where
  /-- Schedule forward (41_key_schedule.md R143). -/
  | schf (key : MasterKey)
  /-- Schedule reverse (41_key_schedule.md R145). -/
  | schr (key : MasterKey)
  /-- Encrypt one block (42_block_engine.md R161). -/
  | enc (block : Block)
  /-- Decrypt one block (42_block_engine.md R163). -/
  | dec (block : Block)
  /-- Write the round-key store (43_transfer_status.md R180). -/
  | wrrk (schedule : Schedule)
  /-- Read the round-key store (43_transfer_status.md R181). -/
  | rdrk
  /-- Read the status byte (43_transfer_status.md R182). -/
  | rdst
  deriving DecidableEq, Repr

/-- The command names of R82, without operands. -/
inductive Mnemonic where
  | SCHF | SCHR | ENC | DEC | WRRK | RDRK | RDST
  deriving DecidableEq, Repr

/-- The command an instruction is of. -/
def Instr.mnemonic : Instr → Mnemonic
  | .schf _ => .SCHF
  | .schr _ => .SCHR
  | .enc _ => .ENC
  | .dec _ => .DEC
  | .wrrk _ => .WRRK
  | .rdrk => .RDRK
  | .rdst => .RDST

/-- The four frame formats of R81. -/
inductive Format where
  | Z | B | K | S
  deriving DecidableEq, Repr

/-- The three fault causes of R200. -/
inductive FaultCause where
  | illegalOpcode | sizeViolation | noSchedule
  deriving DecidableEq, Repr

end Sys2Proof
end

