-- ==== Sys2Proof/Machine/Opcodes.lean ====
section
/-! DEFINITION. The opcode map and the frame formats: 30_encoding.md R81, R82. -/

namespace Sys2Proof

/-- One row of the opcode map of R82. -/
structure OpcodeRow where
  mnemonic : Mnemonic
  opcode : Byte
  format : Format
  deriving DecidableEq, Repr

/-- The row of each command (R82). -/
def Mnemonic.row : Mnemonic → OpcodeRow
  | .SCHF => ⟨.SCHF, 0x01, .K⟩
  | .SCHR => ⟨.SCHR, 0x02, .K⟩
  | .ENC => ⟨.ENC, 0x03, .B⟩
  | .DEC => ⟨.DEC, 0x04, .B⟩
  | .WRRK => ⟨.WRRK, 0x05, .S⟩
  | .RDRK => ⟨.RDRK, 0x06, .Z⟩
  | .RDST => ⟨.RDST, 0x07, .Z⟩

/-- The opcode map (R82). Every opcode it does not list is illegal (R85). -/
def opcodeTable : List OpcodeRow :=
  [Mnemonic.SCHF, .SCHR, .ENC, .DEC, .WRRK, .RDRK, .RDST].map Mnemonic.row

/-- The row an opcode byte selects by exact match of all 8 bits, if any (R82). -/
def opcodeRow? (op : Byte) : Option OpcodeRow := opcodeTable.find? fun row => row.opcode == op

/-- The total length of a frame of a format, in bytes (R81). -/
def Format.length : Format → Nat
  | .Z => 1
  | .B => 17
  | .K => 33
  | .S => 161

end Sys2Proof
end

