-- ==== Sys2Proof/WellFormed.lean ====
section
/-! DEFINITION. Which frames are well formed: the opcode map and the length contract of 30_encoding.md R81, R82,
R85. An instruction carries its operand at its exact size in its type, so no ill-formed instruction can be written
down; what can be ill formed is a frame. -/

namespace Sys2Proof

/-- A frame is well formed when it has an opcode (R85 a), the opcode is legal (R85 b) and the frame has exactly the
length of its format (R85 c). -/
def Frame.wellFormed : Frame → Bool
  | [] => false
  | op :: payload =>
    match opcodeRow? op with
    | none => false
    | some row => payload.length + 1 == row.format.length

/-- The number of payload bytes an instruction's operand type holds. -/
def Instr.payloadLength : Instr → Nat
  | .schf _ => 32
  | .schr _ => 32
  | .enc _ => 16
  | .dec _ => 16
  | .wrrk _ => 160
  | .rdrk => 0
  | .rdst => 0

/-- An instruction is well formed when its payload has the size its format gives it. Every instruction is: "every
one of the 2^128, 2^256 or 2^1280 payload values is legal" (R83). -/
def Instr.wellFormed (i : Instr) : Bool := i.payloadLength + 1 == i.mnemonic.row.format.length

end Sys2Proof
end

