-- ==== Sys2Proof/Decode.lean ====
section
/-! DEFINITION. The decoder and the encoder: 30_encoding.md R80 to R87. The two tests of R86 that look at `ST` (a
fault already present, an empty store) are made where the command is executed, `Machine/Ops.lean`. -/

namespace Sys2Proof

/-- The command of a row with its operand assembled from the payload (R83); used on a payload of the row's length. -/
def assembleOperand (payload : List Byte) : Mnemonic → Instr
  | .SCHF => .schf (ofBytes 256 payload)
  | .SCHR => .schr (ofBytes 256 payload)
  | .ENC => .enc (ofBytes 128 payload)
  | .DEC => .dec (ofBytes 128 payload)
  | .WRRK => .wrrk (scheduleOfBytes payload)
  | .RDRK => .rdrk
  | .RDST => .rdst

/-- The tests of R86 that depend on the frame alone, in their order: no opcode, illegal opcode, wrong length. Total:
every byte sequence gets a command or the name of a fault. -/
def decode : Frame → Except FaultCause Instr
  | [] => .error .sizeViolation
  | op :: payload =>
    match opcodeRow? op with
    | none => .error .illegalOpcode
    | some row =>
      if payload.length + 1 = row.format.length then .ok (assembleOperand payload row.mnemonic)
      else .error .sizeViolation

/-- The opcode byte of an instruction (R82). -/
def Instr.opcode (i : Instr) : Byte := i.mnemonic.row.opcode

/-- The payload of an instruction: frame bytes 1 onward (R81, R83). -/
def Instr.payload : Instr → List Byte
  | .schf key => bytesOf 32 key
  | .schr key => bytesOf 32 key
  | .enc block => blockBytes block
  | .dec block => blockBytes block
  | .wrrk schedule => scheduleBytes schedule
  | .rdrk => []
  | .rdst => []

/-- The command frame of an instruction (R81). -/
def encode (i : Instr) : Frame := i.opcode :: i.payload

/-- The frame behind a word of the opcode table: the word's bytes, byte 0 in its low 8 bits, then zero bytes up to
the length of the format its opcode selects. DESIGN CHOICE, log 9: the table gives a row its opcode byte only, and
the length of a frame comes with it from the transport (R87). -/
def frameOfWord (nbits w : Nat) : Frame :=
  let bytes : List Byte := (List.range (nbits / 8)).map fun j => BitVec.ofNat 8 (w / 2 ^ (8 * j))
  match bytes with
  | [] => []
  | op :: rest =>
    match opcodeRow? op with
    | none => op :: rest
    | some row => op :: (rest ++ List.replicate (row.format.length - 1 - rest.length) 0)

/-- The instruction the decoder reads from a word numbered as the opcode table numbers it. -/
def decodeTableWord (nbits w : Nat) : Option Instr :=
  match decode (frameOfWord nbits w) with
  | .ok i => some i
  | .error _ => none

end Sys2Proof
end

