-- ==== Sys2Proof/Config.lean ====
section
/-! DEFINITION. What is fixed for one machine: the shape of the parameter `TABLES` (00_scope.md R7,
10_state.md R27) and the free values, which the spec leaves open (00_scope.md R13). -/

namespace Sys2Proof

/-- The open parameter `TABLES`: five read-only memories, shaped as R27 and R50 say. What they must satisfy
(20_memory.md R56 to R58) is `Tables.Contract` in `Safety.lean`; the published standard's contents are
`defaultTables`. -/
structure Tables where
  /-- `S`, 256 bytes indexed by byte value. -/
  s : Vector Byte 256
  /-- `SINV`, 256 bytes. -/
  sinv : Vector Byte 256
  /-- `LTF`, indexed by byte position, then byte value. -/
  ltf : Vector (Vector Halves 256) 16
  /-- `LTI`, indexed the same way. -/
  lti : Vector (Vector Halves 256) 16
  /-- `RC`, 32 round constants. -/
  rc : Vector Block 32
  deriving DecidableEq, Repr

/-! The free values: what a register holds where the spec says it "holds no value" (R13). They have no body,
so nothing can be proved about what they are. The argument is `State.freeCount`, which moves on at each draw. -/

/-- `BLK` after a reset (R29). DESIGN CHOICE, log 3. -/
opaque Config.freeBlk : Nat → Block

/-- `RK[0..9]` after a reset (R23, R29). DESIGN CHOICE, log 3. -/
opaque Config.freeSchedule : Nat → Schedule

/-- `ACC` after a reset and after every command that runs an LS or ILS transform (R22). DESIGN CHOICE, logs 3 and 4. -/
opaque Config.freeAcc : Nat → Halves

/-- `W[0..3]` after a reset and after SCHF and SCHR (R25). DESIGN CHOICE, logs 3 and 4. -/
opaque Config.freeScratch : Nat → Scratch

end Sys2Proof
end

