-- ==== Sys2Proof/Machine/Rom.lean ====
section
/-! DEFINITION. Reads of the five read-only memories and their flat image: 20_memory.md R50, R53 to R55. -/

namespace Sys2Proof

/-- `S[v]` = `MemRead(S, v, 1)`. -/
def readS (T : Tables) (v : Byte) : Byte := T.s[v.toNat]'(v.isLt)

/-- `SINV[v]` = `MemRead(SINV, v, 1)`. -/
def readSINV (T : Tables) (v : Byte) : Byte := T.sinv[v.toNat]'(v.isLt)

/-- `LTF_L[p][v]` and `LTF_R[p][v]`: `MemRead(LTF, (p, v, L), 8)` and `MemRead(LTF, (p, v, R), 8)`. -/
def readLTF (T : Tables) (p : Fin 16) (v : Byte) : Halves := (T.ltf[p])[v.toNat]'(v.isLt)

/-- `LTI_L[p][v]` and `LTI_R[p][v]`. -/
def readLTI (T : Tables) (p : Fin 16) (v : Byte) : Halves := (T.lti[p])[v.toNat]'(v.isLt)

/-- `RC[c]` = `MemRead(RC, c, 16)`. -/
def readRC (T : Tables) (c : Fin 32) : Block := T.rc[c]

/-- The flat image of `S` (R55): byte `v` is the entry `v`. -/
def imageS (T : Tables) : List Byte := T.s.toList

/-- The flat image of `SINV` (R55). -/
def imageSINV (T : Tables) : List Byte := T.sinv.toList

/-- The flat image of one direction's linear tables (R55): position by position, value by value, the left half
before the right one, each half least significant byte first. -/
def imageLinear (tables : Vector (Vector Halves 256) 16) : List Byte :=
  tables.toList.flatMap fun row => row.toList.flatMap fun h => bytesOf 8 h.l ++ bytesOf 8 h.r

/-- The flat image of `LTF` (R55). -/
def imageLTF (T : Tables) : List Byte := imageLinear T.ltf

/-- The flat image of `LTI` (R55). -/
def imageLTI (T : Tables) : List Byte := imageLinear T.lti

/-- The flat image of `RC` (R55): the 16 bytes at offset `16 c` are `RC[c]`. -/
def imageRC (T : Tables) : List Byte := T.rc.toList.flatMap blockBytes

end Sys2Proof
end

