-- ==== Sys2Proof/Machine/Cipher.lean ====
section
/-! DEFINITION. The pure functions of the spec, over any `TABLES`: 40_primitives.md R110 to R115, 41_key_schedule.md
R140 to R144, 42_block_engine.md R160, R162. The commands compute them on the registers, `Machine/Datapath.lean`. -/

namespace Sys2Proof

/-- XOR of two 64-bit pairs, half by half. -/
def Halves.xor (a b : Halves) : Halves := ⟨a.l ^^^ b.l, a.r ^^^ b.r⟩

/-- The block whose byte `k` is `f` of byte `k` of `B`: sixteen independent lanes (R119). -/
def mapBytes (f : Byte → Byte) (B : Block) : Block := ofBytes 128 (positions.map fun k => f (byteAt B k))

/-- `X(A, B)` (R110). -/
def X (A B : Block) : Block := A ^^^ B

/-- `SUB(B)` (R111). -/
def SUB (T : Tables) (B : Block) : Block := mapBytes (readS T) B

/-- `ISUB(B)` (R112). -/
def ISUB (T : Tables) (B : Block) : Block := mapBytes (readSINV T) B

/-- The XOR over all positions of the table entry each byte selects, both halves (R113, R114). -/
def lookupXor (entry : Fin 16 → Byte → Halves) (B : Block) : Halves :=
  positions.foldl (fun acc p => acc.xor (entry p (byteAt B p))) ⟨0, 0⟩

/-- `LS(B)` (R113). -/
def LS (T : Tables) (B : Block) : Block := blk (lookupXor (readLTF T) B)

/-- `ILS(B)` (R114). -/
def ILS (T : Tables) (B : Block) : Block := blk (lookupXor (readLTI T) B)

/-- `SWAP(L, R)` (R115). -/
def SWAP (p : Block × Block) : Block × Block := (p.2, p.1)

/-- `FEISTEL(c)` on the pair `(L, R)`: `(R ^ LS(L ^ RC[c]), L)` (R141). -/
def FEISTEL (T : Tables) (c : Fin 32) (p : Block × Block) : Block × Block :=
  SWAP (p.1, X p.2 (LS T (X p.1 (readRC T c))))

/-- The Feistel-round index `t` of R140, in order. -/
def rounds : List (Fin 8) := [0, 1, 2, 3, 4, 5, 6, 7]

/-- The constant index of Feistel round `t` of the `j`-th derived pair, `j` from 0: one continuous counter over all
four pairs (R142). -/
def constantIndex (j : Fin 4) (t : Fin 8) : Fin 32 := ⟨8 * j + t, by omega⟩

/-- The eight Feistel rounds that derive one pair from the previous one (R140). -/
def derivePair (T : Tables) (j : Fin 4) (p : Block × Block) : Block × Block :=
  rounds.foldl (fun p t => FEISTEL T (constantIndex j t) p) p

/-- The ten entries of five pairs: in each pair the even index takes `L` and the odd index takes `R` (R140). -/
def scheduleOfPairs (p0 p1 p2 p3 p4 : Block × Block) : Schedule :=
  #v[p0.1, p0.2, p1.1, p1.2, p2.1, p2.2, p3.1, p3.2, p4.1, p4.2]

/-- `scheduleForward(K)` (R140). -/
def scheduleForward (T : Tables) (K : MasterKey) : Schedule :=
  let p0 := (keyLow K, keyHigh K)
  let p1 := derivePair T 0 p0
  let p2 := derivePair T 1 p1
  let p3 := derivePair T 2 p2
  let p4 := derivePair T 3 p3
  scheduleOfPairs p0 p1 p2 p3 p4

/-- The entries whose keys the reverse schedule transforms: 1 to 8 (R144, R165). -/
def transformedEntries : List (Fin 10) := [1, 2, 3, 4, 5, 6, 7, 8]

/-- `scheduleReverse(K)` (R144). -/
def scheduleReverse (T : Tables) (K : MasterKey) : Schedule :=
  transformedEntries.foldl (fun (DK : Schedule) (i : Fin 10) => DK.set i (ILS T (SUB T DK[i]))) (scheduleForward T K)

/-- The encryption round index `r` = 0 to 8 (R160). -/
def encryptRounds : List (Fin 10) := [0, 1, 2, 3, 4, 5, 6, 7, 8]

/-- `encryptBlock(Q, P)` (R160). -/
def encryptBlock (T : Tables) (Q : Schedule) (P : Block) : Block :=
  X (encryptRounds.foldl (fun (B : Block) (r : Fin 10) => LS T (X B Q[r])) P) Q[9]

/-- The decryption index `i` = 8 down to 1 (R162 step 3). -/
def decryptRounds : List (Fin 10) := [8, 7, 6, 5, 4, 3, 2, 1]

/-- `decryptBlock(Q, C)` (R162): in step 3 the inverse LS transform comes first and the XOR second
(90_conflicts.md C1). -/
def decryptBlock (T : Tables) (Q : Schedule) (C : Block) : Block :=
  X (ISUB T (decryptRounds.foldl (fun (B : Block) (i : Fin 10) => X (ILS T B) Q[i]) (ILS T (SUB T (X C Q[9]))))) Q[0]

end Sys2Proof
end

