-- ==== Sys2Proof/Machine/Datapath.lean ====
section
/-! DEFINITION. The datapath: the pseudocode of 40_primitives.md, 41_key_schedule.md and 42_block_engine.md run on the
hidden registers `ACC` and `W[0..3]`, with a count of the operations it performs (70_reset_and_hazards.md R241). What
it computes is `Machine/Cipher.lean`'s pure functions, whatever the registers held before. -/

namespace Sys2Proof

/-- Numbers of operations, one field per column of the table of R241. -/
structure OpCounts where
  ls : Nat
  ils : Nat
  /-- 64-bit reads of `LTF`. -/
  ltf : Nat
  /-- 64-bit reads of `LTI`. -/
  lti : Nat
  s : Nat
  sinv : Nat
  rc : Nat
  /-- 128-bit key XORs. -/
  xors : Nat
  deriving DecidableEq, Repr

/-- Operation counts add up. -/
def OpCounts.add (a b : OpCounts) : OpCounts :=
  ⟨a.ls + b.ls, a.ils + b.ils, a.ltf + b.ltf, a.lti + b.lti, a.s + b.s, a.sinv + b.sinv, a.rc + b.rc, a.xors + b.xors⟩

/-- The hidden registers while a command runs, and the operations done so far. The counts are not hardware and are
dropped at the end of the command (log 13). -/
structure Datapath where
  acc : Halves
  w : Scratch
  ops : OpCounts
  deriving DecidableEq, Repr

/-- Records `n` more operations. -/
def Datapath.count (n : OpCounts) (d : Datapath) : Datapath := { d with ops := d.ops.add n }

/-- `X(A, B)` (R110). -/
def opX (A B : Block) (d : Datapath) : Block × Datapath :=
  (X A B, d.count ⟨0, 0, 0, 0, 0, 0, 0, 1⟩)

/-- `SUB(B)` (R111): 16 reads of `S`. -/
def opSUB (T : Tables) (B : Block) (d : Datapath) : Block × Datapath :=
  (SUB T B, d.count ⟨0, 0, 0, 0, 16, 0, 0, 0⟩)

/-- `ISUB(B)` (R112): 16 reads of `SINV`. -/
def opISUB (T : Tables) (B : Block) (d : Datapath) : Block × Datapath :=
  (ISUB T B, d.count ⟨0, 0, 0, 0, 0, 16, 0, 0⟩)

/-- One position of the LS loop: two 64-bit reads of `LTF` into `ACC` (R113). -/
def stepLS (T : Tables) (B : Block) (d : Datapath) (p : Fin 16) : Datapath :=
  { d with acc := d.acc.xor (readLTF T p (byteAt B p)) }.count ⟨0, 0, 2, 0, 0, 0, 0, 0⟩

/-- `LS(B)` (R113): `ACC` is cleared, the sixteen positions are accumulated, `ACC` is read as a block. -/
def opLS (T : Tables) (B : Block) (d : Datapath) : Block × Datapath :=
  let d := positions.foldl (stepLS T B) ({ d with acc := ⟨0, 0⟩ }.count ⟨1, 0, 0, 0, 0, 0, 0, 0⟩)
  (blk d.acc, d)

/-- One position of the ILS loop: two 64-bit reads of `LTI` into `ACC` (R114). -/
def stepILS (T : Tables) (B : Block) (d : Datapath) (p : Fin 16) : Datapath :=
  { d with acc := d.acc.xor (readLTI T p (byteAt B p)) }.count ⟨0, 0, 0, 2, 0, 0, 0, 0⟩

/-- `ILS(B)` (R114). -/
def opILS (T : Tables) (B : Block) (d : Datapath) : Block × Datapath :=
  let d := positions.foldl (stepILS T B) ({ d with acc := ⟨0, 0⟩ }.count ⟨0, 1, 0, 0, 0, 0, 0, 0⟩)
  (blk d.acc, d)

/-- `SWAP(L, R)` on `W[0]` and `W[1]`: both reads before both writes (R115). -/
def opSWAP (d : Datapath) : Datapath := { d with w := { d.w with l := d.w.r, r := d.w.l } }

/-- `FEISTEL(c)` on `W[0..3]` (R141): `T <- X(L, RC[c]); U <- LS(T); R <- X(R, U); SWAP(L, R)`. -/
def opFEISTEL (T : Tables) (c : Fin 32) (d : Datapath) : Datapath :=
  let (t, d) := opX d.w.l (readRC T c) (d.count ⟨0, 0, 0, 0, 0, 0, 1, 0⟩)
  let d := { d with w := { d.w with t := t } }
  let (u, d) := opLS T d.w.t d
  let d := { d with w := { d.w with u := u } }
  let (r, d) := opX d.w.r d.w.u d
  opSWAP { d with w := { d.w with r := r } }

/-- One derived pair of R140, `j` from 0: entries `2j`, `2j+1` are copied to `L`, `R`, eight Feistel rounds run, and
`L`, `R` become entries `2j+2`, `2j+3`. -/
def opDerivePair (T : Tables) (x : Schedule × Datapath) (j : Fin 4) : Schedule × Datapath :=
  let (FK, d) := x
  let d := { d with w := { d.w with l := FK[2 * j.val]'(by omega), r := FK[2 * j.val + 1]'(by omega) } }
  let d := rounds.foldl (fun d t => opFEISTEL T (constantIndex j t) d) d
  ((FK.set (2 * j.val + 2) d.w.l (by omega)).set (2 * j.val + 3) d.w.r (by omega), d)

/-- The pair index of R140, counted from 0. -/
def pairs : List (Fin 4) := [0, 1, 2, 3]

/-- The store as its ten registers: equal to `RK` (`registers_eq`), and written so that an entry computes whatever the
others hold, a free value too. -/
def registers (RK : Schedule) : Schedule := #v[RK[0], RK[1], RK[2], RK[3], RK[4], RK[5], RK[6], RK[7], RK[8], RK[9]]

/-- `scheduleForward(K)` into a store that held `RK` before (R140): all ten entries are written. -/
def opScheduleForward (T : Tables) (K : MasterKey) (RK : Schedule) (d : Datapath) : Schedule × Datapath :=
  pairs.foldl (opDerivePair T) (((registers RK).set 0 (keyLow K)).set 1 (keyHigh K), d)

/-- One entry of R144's loop: `DK[i] <- ILS(SUB(DK[i]))`. -/
def opTransformKey (T : Tables) (x : Schedule × Datapath) (i : Fin 10) : Schedule × Datapath :=
  let (DK, d) := x
  let (B, d) := opSUB T DK[i] d
  let (B, d) := opILS T B d
  (DK.set i B, d)

/-- `scheduleReverse(K)` (R144): the forward schedule, then entries 1 to 8 transformed in place. -/
def opScheduleReverse (T : Tables) (K : MasterKey) (RK : Schedule) (d : Datapath) : Schedule × Datapath :=
  transformedEntries.foldl (opTransformKey T) (opScheduleForward T K RK d)

/-- One round of R160: `B <- X(B, Q[r]); B <- LS(B)`. -/
def opEncryptRound (T : Tables) (Q : Schedule) (x : Block × Datapath) (r : Fin 10) : Block × Datapath :=
  let (B, d) := x
  let (B, d) := opX B Q[r] d
  opLS T B d

/-- `encryptBlock(Q, P)` (R160). -/
def opEncryptBlock (T : Tables) (Q : Schedule) (P : Block) (d : Datapath) : Block × Datapath :=
  let (B, d) := encryptRounds.foldl (opEncryptRound T Q) (P, d)
  opX B Q[9] d

/-- One iteration of R162 step 3: `B <- ILS(B); B <- X(B, Q[i])`, in this order (90_conflicts.md C1). -/
def opDecryptRound (T : Tables) (Q : Schedule) (x : Block × Datapath) (i : Fin 10) : Block × Datapath :=
  let (B, d) := x
  let (B, d) := opILS T B d
  opX B Q[i] d

/-- `decryptBlock(Q, C)` (R162). -/
def opDecryptBlock (T : Tables) (Q : Schedule) (C : Block) (d : Datapath) : Block × Datapath :=
  let (B, d) := opX C Q[9] d
  let (B, d) := opSUB T B d
  let (B, d) := opILS T B d
  let (B, d) := decryptRounds.foldl (opDecryptRound T Q) (B, d)
  let (B, d) := opISUB T B d
  opX B Q[0] d

end Sys2Proof
end

