-- ==== Sys2Proof/Machine/Flags.lean ====
section
/-! DEFINITION. The status byte `ST` and its fields: 10_state.md R24, R30. The core has no arithmetic flags. -/

namespace Sys2Proof

/-- The schedule kinds of `ST.KST`: what last wrote the round-key store. -/
inductive ScheduleKind where
  | EMPTY | FWD | REV | RAW
  deriving DecidableEq, Repr

/-- The value of a kind in `ST` bits 1:0 (R24). -/
def ScheduleKind.code : ScheduleKind → Status
  | .EMPTY => 0
  | .FWD => 1
  | .REV => 2
  | .RAW => 3

/-- The value of a cause in `FCAUSE` (R24, 60_exceptions.md R200). -/
def FaultCause.code : FaultCause → Status
  | .illegalOpcode => 1
  | .sizeViolation => 2
  | .noSchedule => 3

/-- `ST.KST`, bits 1:0; all four values are used (R24). -/
def kstOf (st : Status) : ScheduleKind :=
  match st.getLsbD 1, st.getLsbD 0 with
  | false, false => .EMPTY
  | false, true => .FWD
  | true, false => .REV
  | true, true => .RAW

/-- `ST.FAULT`, bit 2. -/
def faultOf (st : Status) : Bool := st.getLsbD 2

/-- `ST.FCAUSE`, bits 4:3, as a number. -/
def fcauseOf (st : Status) : BitVec 2 := st.extractLsb' 3 2

/-- `ST` bits 7:5, which read as 0. -/
def reservedOf (st : Status) : BitVec 3 := st.extractLsb' 5 3

/-- `ST.KST <- k`; every other bit is kept. -/
def setKst (k : ScheduleKind) (st : Status) : Status := (st &&& 0xfc) ||| k.code

/-- `ST.FAULT <- 1; ST.FCAUSE <- code(c)`; every other bit is kept (60_exceptions.md R207). -/
def setFault (c : FaultCause) (st : Status) : Status := (st &&& 0xe3) ||| 0x04 ||| (c.code <<< 3)

end Sys2Proof
end

