-- ==== Sys2Proof/Machine/DefaultTables.lean ====
section
/-! DEFINITION. The default contents of `TABLES`: 20_memory.md R62 to R68, the published standard's tables, marked
there as general knowledge (PRESUMED, log 2). The listings are the spec's own lines, one hexadecimal number for a
line of 16 bytes, byte 0 first. -/

namespace Sys2Proof

/-- The 16 bytes of one line of a listing; byte 0 is the first pair of digits (R10). -/
def lineBytes (n : Nat) : List Byte := (List.range 16).map fun j => BitVec.ofNat 8 (n >>> (8 * (15 - j)))

/-- The block the spec writes as these 32 hexadecimal digits (R10). -/
def blockOfDigits (n : Nat) : Block := ofBytes 128 (lineBytes n)

/-- The lines of `S` (R62). -/
def defaultSLines : List Nat :=
  [0xfceedd11cf6e3116fbc4fada23c5044d, 0xe977f0db932e99ba1736f1bb14cd5fc1,
   0xf918655ae25cef21811c3c428b018e4f, 0x058402aee36a8fa0060bed987fd4d31f,
   0xeb342c51eac848abf22a68a2fd3acecc, 0xb5700e56080c7612bf7213479cb75d87,
   0x15a19629107b9ac7f391786f9d9eb2b1, 0x3275193dff358a7e6d54c680c3bd0d57] ++
  [0xdff524a93ea843c9d779d6f67c22b903, 0xe00fecde7a94b0bcdce828504e330a4a,
   0xa79760731e0062441ab83882649f2641, 0xad454692275e552f8ca3a57d69d5953b,
   0x0758b34086ac1df730376be488d9e789, 0xe11b83494c3ff8fe8d53aa90cad88561,
   0x207167a42d2b095bcb9b25d0bee56c52, 0x59a674d2e6f4b4c0d166afc2394b63b6]

/-- The lines of `SINV` (R63). -/
def defaultSINVLines : List Nat :=
  [0xa52d328f0e3038c054e69e39557e5291, 0x6403575a1c6007182172a8d129c6a43f,
   0xe0278d0c82eaaeb49a6349e542e415b7, 0xc806709d417519c9aafc4dbf2a7384d5,
   0xc3af2b86a7b1b25b46d39ffdd40f9c2f, 0x9b43efd979b6537fc1f023e7255eb51e,
   0xa2dfa6feac22f9e24abc35caee78056b, 0x51e159a3f27156116a8994658cbb773c] ++
  [0x7b28abd231dec45fcccf762cb8d82e36, 0xdb69b31495be62a13b1666e95c6c6dad,
   0x37614bb9e3baf1a08583da47c5b033fa, 0x966f6ec2f650ff5da98e171b977dec58,
   0xf71ffb7c090d7a674587dce84f1d4e04, 0xebf8f33e3dbd8a88ddcd0b1398029380,
   0x90d02434cbedf4ce99104440923a0126, 0x121a4868f5818bc7d6200a08004cd774]

/-- The rows of the matrix `MM` of `M` (R65). -/
def defaultMMLines : List Nat :=
  [0xcf9874bf938ef2f30abff6a9ea8e4d6e, 0x6e20c6da9048899cc164b82d8644d0a2,
   0xa2c8877068431c2ba163306b9f30e376, 0x7633100c1c11d66aa6d7f6490714e872,
   0x72f26bca20eb02a48dd4c40165dd4c6c, 0x6c76ec0cc5bcaf6ea3e190580e02c348,
   0x48d56217062dc4e7d5eb997852f5167a, 0x7ae64e1abb2ef1bed4af37b1d42a6eb8] ++
  [0xb8498714cb8dab49096c2a01608e4b5d, 0x5dd4b82f8d12eef608540ff398c87f27,
   0x279fbe681a7cadc9842febfec648a2bd, 0xbd955e30e960bf10ef39ec917f488910,
   0x10e9d0d9f3943daf7bff649152f80ddd, 0xdd9975ca97445ae030a631d3df486484,
   0x842d74965d776fde54b48dd1443ca594, 0x94208510c2c001fb01c0c21085209401]

/-- The rows of the matrix `MMI` of `MINV` (R66). -/
def defaultMMILines : List Nat :=
  [0x0194208510c2c001fb01c0c210852094, 0x94a53c44d18db454de6f775d96742d84,
   0x846448dfd331a630e05a4497ca7599dd, 0xdd0df8529164ff7baf3d94f3d9d0e910,
   0x1089487f91ec39ef10bf60e9305e95bd, 0xbda248c6feeb2f84c9ad7c1a68be9f27,
   0x277fc898f30f5408f6ee128d2fb8d45d, 0x5d4b8e60012a6c0949ab8dcb148749b8] ++
  [0xb86e2ad4b137afd4bef12ebb1a4ee67a, 0x7a16f5527899ebd5e7c42d061762d548,
   0x48c3020e5890e1a36eafbcc50cec766c, 0x6c4cdd6501c4d48da402eb20ca6bf272,
   0x72e8140749f6d7a66ad6111c0c103376, 0x76e3309f6b3063a12b1c43687087c8a2,
   0xa2d044862db864c19c894890dac6206e, 0x6e4d8eeaa9f6bf0af3f28e93bf7498cf]

/-- The round constants (R67). -/
def defaultRCLines : List Nat :=
  [0x6ea276726c487ab85d27bd10dd849401, 0xdc87ece4d890f4b3ba4eb92079cbeb02,
   0xb2259a96b4d88e0be7690430a44f7f03, 0x7bcd1b0b73e32ba5b79cb140f2551504,
   0x156f6d791fab511deabb0c502fd18105, 0xa74af7efab73df160dd208608b9efe06,
   0xc9e8819dc73ba5ae50f5b570561a6a07, 0xf6593616e6055689adfba18027aa2a08] ++
  [0x98fb40648a4d2c31f0dc1c90fa2ebe09, 0x2adedaf23e95a23a17b518a05e61c10a,
   0x447cac8052ddd8824a92a5b083e5550b, 0x8d942d1d95e67d2c1a6710c0d5ff3f0c,
   0xe3365b6ff9ae07944740add0087bab0d, 0x5113c1f94d76899fa029a9e0ac34d40e,
   0x3fb1b78b213ef327fd0e14f071b0400f, 0x2fb26c2c0f0aacd1993581c34e975410] ++
  [0x41101a5e6342d669c4123cd39313c011, 0xf33580c8d79a5862237b38e3375cbf12,
   0x9d97f6babbd222da7e5c85f3ead82b13, 0x547f77277ce987742ea93083bcc24114,
   0x3add015510a1fdcc738e8d936146d515, 0x88f89bc3a47973c794e789a3c509aa16,
   0xe65aedb1c831097fc9c034b3188d3e17, 0xd9eb5a3ae90ffa5834ce2043693d7e18] ++
  [0xb7492c48854780e069e99d53b4b9ea19, 0x056cb6de319f0eeb8e80996310f6951a,
   0x6bcec0ac5dd77453d3a72473cd72011b, 0xa22641319aecd1fd835291039b686b1c,
   0xcc843743f6a4ab45de752c1346ecff1d, 0x7ea1add5427c254e391c2823e2a3801e,
   0x1003dba72e345ff6643b95333f27141f, 0x5ea7d8581e149b61f16ac1459ceda820]

/-- A polynomial of degree at most 7 times x, reduced by x^8 + x^7 + x^6 + x + 1 (0x1C3) when x^8 appears (R64). -/
def gdouble (b : Nat) : Nat := (b * 2) ^^^ (b / 128 * 0x1c3)

/-- The sum of `b` times x^k over the coefficients of `a` up to degree `n - 1`. -/
def gmulNat : Nat → Nat → Nat → Nat
  | 0, _, _ => 0
  | n + 1, a, b => (a % 2 * b) ^^^ gmulNat n (a / 2) (gdouble b)

/-- `gmul(a, b)`: the product in GF(2^8) modulo x^8 + x^7 + x^6 + x + 1 (R64). -/
def gmul (a b : Byte) : Byte := BitVec.ofNat 8 (gmulNat 8 a.toNat b.toNat)

/-- A sum in the field over the sixteen positions. -/
def fieldSum (f : Fin 16 → Byte) : Byte := positions.foldl (fun a p => a ^^^ f p) 0

/-- The coefficients `LC[0..15]` of the one-step map (R64), in the spec's decimals. -/
def LC (p : Fin 16) : Byte := [148, 32, 133, 16, 194, 192, 1, 251, 1, 192, 194, 16, 133, 32, 148, 1].getD p 0

/-- The one-step map `R` (R64): byte 0 is the weighted sum of all bytes, every other byte moves up one position. -/
def stepR (B : Block) : Block :=
  ofBytes 128 ((fieldSum fun p => gmul (LC p) (byteAt B p)) :: (positions.take 15).map (byteAt B))

/-- The inverse of `R` (R64): every byte moves down one position, and byte 15 is `B'[0]` and the weighted sum of the
bytes that moved. -/
def stepRInv (B : Block) : Block :=
  ofBytes 128 ((positions.drop 1).map (byteAt B) ++
    [byteAt B 0 ^^^ (positions.take 15).foldl (fun a p => a ^^^ gmul (LC p) (byteAt B (p + 1))) 0])

/-- The standard's `M`: `R` applied 16 times (R64). -/
def standardM (B : Block) : Block := positions.foldl (fun B _ => stepR B) B

/-- The standard's `MINV`: the inverse of `R` applied 16 times (R64). -/
def standardMINV (B : Block) : Block := positions.foldl (fun B _ => stepRInv B) B

/-- A matrix of bytes as a function of row and column. -/
def matrixOfLines (lines : List Nat) (i p : Fin 16) : Byte :=
  BitVec.ofNat 8 (lines.getD i 0 >>> (8 * (15 - (p : Nat))))

/-- `MM` (R65). -/
def MM : Fin 16 → Fin 16 → Byte := matrixOfLines defaultMMLines

/-- `MMI` (R66). -/
def MMI : Fin 16 → Fin 16 → Byte := matrixOfLines defaultMMILines

/-- The matrix `A` over a field with product `mul` and exclusive-or for addition, applied to the 16-byte vector `B`: byte
`i` is `mul(A[i][0], B[0]) ^ ... ^ mul(A[i][15], B[15])` (R57). -/
def matrixOver (mul : Byte → Byte → Byte) (A : Fin 16 → Fin 16 → Byte) (B : Block) : Block :=
  ofBytes 128 (positions.map fun i => fieldSum fun p => mul (A i p) (byteAt B p))

/-- `M(B)[i] = gmul(A[i][0], B[0]) ^ ... ^ gmul(A[i][15], B[15])` (R65, R66). -/
def matrixTimes (A : Fin 16 → Fin 16 → Byte) (B : Block) : Block := matrixOver gmul A B

/-- Column `p` of a matrix times the byte `x`: byte `i` is `gmul(A[i][p], x)` (R68), as the two halves of the block. -/
def columnTimes (A : Fin 16 → Fin 16 → Byte) (p : Fin 16) (x : Byte) : Halves :=
  ⟨ofBytes 64 ((positions.take 8).map fun i => gmul (A i p) x),
   ofBytes 64 ((positions.drop 8).map fun i => gmul (A i p) x)⟩

/-- A 256-byte table from its sixteen lines. -/
def byteTable (lines : List Nat) (h : lines.length = 16) : Vector Byte 256 :=
  ⟨⟨lines.flatMap lineBytes⟩, by simp [lineBytes, h]⟩

/-- One 256-entry table per position: the entry at value `v` is column `p` of `A` times `sub[v]` (R68). -/
def linearRow (A : Fin 16 → Fin 16 → Byte) (sub : Vector Byte 256) (p : Fin 16) : Vector Halves 256 :=
  ⟨⟨sub.toList.map (columnTimes A p)⟩, by simp⟩

/-- The sixteen tables of one direction (R68). -/
def linearTable (A : Fin 16 → Fin 16 → Byte) (sub : Vector Byte 256) : Vector (Vector Halves 256) 16 :=
  ⟨⟨positions.map (linearRow A sub)⟩, rfl⟩

/-- Default `S` (R62). -/
def defaultS : Vector Byte 256 := byteTable defaultSLines rfl

/-- Default `SINV` (R63). -/
def defaultSINV : Vector Byte 256 := byteTable defaultSINVLines rfl

/-- The default `TABLES`: R62, R63, R67 and R68. -/
def defaultTables : Tables where
  s := defaultS
  sinv := defaultSINV
  ltf := linearTable MM defaultS
  lti := linearTable MMI defaultSINV
  rc := ⟨⟨defaultRCLines.map blockOfDigits⟩, rfl⟩

end Sys2Proof
end

