-- ==== Sys2Proof/Machine/State.lean ====
section
/-! DEFINITION. The state of the machine and its value at power-on: 10_state.md R20 to R31. -/

namespace Sys2Proof.Machine

/-- Core state (R20) together with the two other things the step function of the spec is applied to: the parameter
`TABLES` (R27, which no command and no reset writes; log 1) and the frame streams of the environment (R28). -/
structure State where
  /-- `TABLES`: read-only memories (R27). -/
  tables : Tables
  /-- `BLK`, the engine's block buffer (R21). -/
  blk : Block
  /-- `ACC`, the hidden accumulator pair (R22). -/
  acc : Halves
  /-- `RK[0..9]`, the round-key store (R23). -/
  rk : Schedule
  /-- `ST`, the status byte (R24). -/
  st : Status
  /-- `W[0..3]`, the scheduler's hidden scratch (R25). -/
  w : Scratch
  /-- `IN`, the command frames not yet taken, oldest first (R28). -/
  input : List Frame
  /-- `OUT`, the response frames not yet removed by the host, oldest first (R28). -/
  output : List Frame
  /-- The model's own counter of free values drawn (logs 3 and 4); not the hardware's. -/
  freeCount : Nat
  deriving DecidableEq, Repr

/-- Why a step would stop the machine. Nothing does: a fault of this core is a status (60_exceptions.md R207), so a
faulting frame leads to a next state, and no frame and no state is without a next one. Closed, with no constructor;
safe (log 11). -/
inductive Fault where
  deriving DecidableEq, Repr

/-- Why an instruction would have no meaning. -/
inductive Refusal where
  /-- Raised by an arm of `exec` for an instruction not modelled yet; no arm does. Safe. -/
  | notModelled (mnemonic : String)
  deriving DecidableEq, Repr

/-- The machine right after a reset at power-on (R29): `ST` = 0x00, `TABLES` at its configured contents, here the
default ones (log 2), nothing in the streams (log 6); `RK`, `BLK`, `ACC`, `W` hold no value, so each is a free value
(log 3). -/
def State.reset : State where
  tables := defaultTables
  blk := Config.freeBlk 0
  acc := Config.freeAcc 0
  rk := Config.freeSchedule 0
  st := 0x00
  w := Config.freeScratch 0
  input := []
  output := []
  freeCount := 1

end Sys2Proof.Machine
end

