-- ==== Sys2Proof/Machine/Ops.lean ====
section
/-! DEFINITION. The operations every command is written with: taking and answering frames (30_encoding.md R80, R84),
fault entry (60_exceptions.md R207) and the tests on `ST` that stand before it (30_encoding.md R86), the hidden
registers of a command (10_state.md R22, R25) and reset (70_reset_and_hazards.md R230). -/

namespace Sys2Proof.Machine

/-- Takes the frame at the head of `IN`, if there is one (R80). -/
def fetch (s : State) : Option (Frame × State) :=
  match s.input with
  | [] => none
  | f :: rest => some (f, { s with input := rest })

/-- `emit(bytes)`: appends one response frame to `OUT` (00_scope.md R12). -/
def emit (response : Frame) (s : State) : State := { s with output := s.output ++ [response] }

/-- `raise F`, taking a fault (R207): `ST.FAULT <- 1; ST.FCAUSE <- code(F)`, nothing else. There is no return from it
but reset (R208). -/
def raiseFault (c : FaultCause) (s : State) : State := { s with st := setFault c s.st }

/-- A frame the decoder rejects: with a fault already present it is discarded, else its fault is taken (R86, R206). -/
def reject (c : FaultCause) (s : State) : State := if faultOf s.st then s else raiseFault c s

/-- A command that needs no schedule: discarded while `ST.FAULT` = 1 (R86, R209), else run. -/
def command (s : State) (run : State → State) : State := if faultOf s.st then s else run s

/-- A command that reads the round-key store: also `NoSchedule` while `ST.KST` = `EMPTY` (R86, R203). -/
def storeCommand (s : State) (run : State → State) : State :=
  command s fun s => if kstOf s.st = .EMPTY then raiseFault .noSchedule s else run s

/-- The hidden registers as a command finds them, nothing counted yet. -/
def datapathOf (s : State) : Datapath := ⟨s.acc, s.w, ⟨0, 0, 0, 0, 0, 0, 0, 0⟩⟩

/-- The end of a block command: `ACC` holds no value from here on (R22). -/
def retireEngine (s : State) : State :=
  { s with acc := Config.freeAcc s.freeCount, freeCount := s.freeCount + 1 }

/-- The end of a schedule command: `ACC` and `W[0..3]` hold no value from here on (R22, R25). -/
def retireScheduler (s : State) : State :=
  { s with acc := Config.freeAcc s.freeCount, w := Config.freeScratch s.freeCount, freeCount := s.freeCount + 1 }

/-- Writes all ten entries of the round-key store and records what wrote them in `ST.KST` (R23, R24). -/
def writeStore (Q : Schedule) (k : ScheduleKind) (s : State) : State := { s with rk := Q, st := setKst k s.st }

/-- The host's reset event (R230, 10_state.md R29): `ST` = 0x00; `RK`, `BLK`, `ACC`, `W` without value; `TABLES`, `IN`
and `OUT` untouched. -/
def hostReset (s : State) : State :=
  { s with
    blk := Config.freeBlk s.freeCount
    acc := Config.freeAcc s.freeCount
    rk := Config.freeSchedule s.freeCount
    st := 0x00
    w := Config.freeScratch s.freeCount
    freeCount := s.freeCount + 1 }

end Sys2Proof.Machine
end

