-- ==== Sys2Proof/Machine/BlockEngine.lean ====
section
/-! DEFINITION. The block cipher engine's commands: 42_block_engine.md R161, R163. -/

namespace Sys2Proof.Machine

/-- A block command: `BLK <- block`, `BLK` transformed in place with the round-key store, `BLK` emitted (R161, R163). -/
def blockCommand (transform : Tables → Schedule → Block → Datapath → Block × Datapath) (block : Block) (s : State) :
    State :=
  let s := { s with blk := block }
  let s := { s with blk := (transform s.tables s.rk s.blk (datapathOf s)).1 }
  retireEngine (emit (blockBytes s.blk) s)

/-- ENC (R161). -/
def execEnc (block : Block) (s : State) : Host.Outcome State Fault Refusal :=
  .next (storeCommand s (blockCommand opEncryptBlock block))

/-- DEC (R163). -/
def execDec (block : Block) (s : State) : Host.Outcome State Fault Refusal :=
  .next (storeCommand s (blockCommand opDecryptBlock block))

end Sys2Proof.Machine
end

