-- ==== Sys2Proof/Machine/KeySchedule.lean ====
section
/-! DEFINITION. The key scheduler's commands: 41_key_schedule.md R143, R145. -/

namespace Sys2Proof.Machine

/-- SCHF (R143): `RK[0..9] <- scheduleForward(key)`, using `W` and `ACC`; `ST.KST <- FWD`. -/
def execSchf (key : MasterKey) (s : State) : Host.Outcome State Fault Refusal :=
  .next (command s fun s =>
    retireScheduler (writeStore (opScheduleForward s.tables key s.rk (datapathOf s)).1 .FWD s))

/-- SCHR (R145): `RK[0..9] <- scheduleReverse(key)`, using `W` and `ACC`; `ST.KST <- REV`. -/
def execSchr (key : MasterKey) (s : State) : Host.Outcome State Fault Refusal :=
  .next (command s fun s =>
    retireScheduler (writeStore (opScheduleReverse s.tables key s.rk (datapathOf s)).1 .REV s))

end Sys2Proof.Machine
end

