-- ==== Sys2Proof/Machine/Transfer.lean ====
section
/-! DEFINITION. Round-key transfer and status: 43_transfer_status.md R180 to R182. -/

namespace Sys2Proof.Machine

/-- WRRK (R180): `RK[i] <- ` entry `i` of the payload; `ST.KST <- RAW`. -/
def execWrrk (schedule : Schedule) (s : State) : Host.Outcome State Fault Refusal :=
  .next (command s (writeStore schedule .RAW))

/-- RDRK (R181): emits the 160 bytes of the store. -/
def execRdrk (s : State) : Host.Outcome State Fault Refusal :=
  .next (storeCommand s fun s => emit (scheduleBytes s.rk) s)

/-- RDST (R182): emits `ST`; the only command that is answered while `ST.FAULT` = 1 (60_exceptions.md R209). -/
def execRdst (s : State) : Host.Outcome State Fault Refusal :=
  .next (emit [s.st] s)

end Sys2Proof.Machine
end

