-- ==== Sys2Proof/Machine/Dispatch.lean ====
section
/-! DEFINITION. The meaning of each command, one arm per constructor of `Instr`. -/

namespace Sys2Proof.Machine

def exec (i : Instr) (s : State) : Host.Outcome State Fault Refusal :=
  match i with
  | .schf key => Sys2Proof.Machine.execSchf key s
  | .schr key => Sys2Proof.Machine.execSchr key s
  | .enc block => Sys2Proof.Machine.execEnc block s
  | .dec block => Sys2Proof.Machine.execDec block s
  | .wrrk schedule => Sys2Proof.Machine.execWrrk schedule s
  | .rdrk => Sys2Proof.Machine.execRdrk s
  | .rdst => Sys2Proof.Machine.execRdst s

end Sys2Proof.Machine
end

