-- ==== Sys2Proof/Machine/Step.lean ====
section
/-! DEFINITION. One step of the core: 30_encoding.md R80. -/

namespace Sys2Proof.Machine

/-- One step (R80): the frame at the head of `IN` is removed and decoded; a frame the decoder rejects takes its fault
and does nothing else; a command is executed completely. With nothing in `IN` the core waits, and all state survives the
wait (60_exceptions.md R211; log 5). -/
def step (s : State) : Host.Outcome State Fault Refusal :=
  match fetch s with
  | none => .next s
  | some (f, s) =>
    match decode f with
    | .error c => .next (reject c s)
    | .ok i => exec i s

/-- `s` with the frame behind an opcode-table word at the head of `IN`, where `step` takes its next command: the
delivery of one frame by the host (log 9). -/
def State.withFetchWord (s : State) (nbits w : Nat) : State := { s with input := frameOfWord nbits w :: s.input }

end Sys2Proof.Machine
end

