-- ==== Sys2Proof/Machine/Environment.lean ====
section
/-! DEFINITION. What the host does to the machine, between two commands: 00_scope.md R8, 10_state.md R28,
70_reset_and_hazards.md R230. -/

namespace Sys2Proof.Machine

/-- The actions of the host. -/
inductive HostAction where
  /-- Appends a frame to `IN`. -/
  | send (f : Frame)
  /-- Removes the oldest response from `OUT`, if there is one. -/
  | receive
  /-- The reset event. -/
  | reset
  deriving DecidableEq, Repr

/-- The effect of a host action. -/
def hostAct (a : HostAction) (s : State) : State :=
  match a with
  | .send f => { s with input := s.input ++ [f] }
  | .receive => { s with output := s.output.drop 1 }
  | .reset => hostReset s

/-- What happens next in a system of one core and its host. -/
inductive Event where
  | core
  | host (a : HostAction)
  deriving DecidableEq, Repr

/-- One event: a command is atomic, so a host action falls between two steps of the core (R80, R230). -/
def systemStep (e : Event) (s : State) : Host.Outcome State Fault Refusal :=
  match e with
  | .core => step s
  | .host a => .next (hostAct a s)

/-- A sequence of events. -/
def systemRun : List Event → State → Host.Outcome State Fault Refusal
  | [], s => .next s
  | e :: es, s =>
    match systemStep e s with
    | .next t => systemRun es t
    | .fault r => .fault r
    | .refused r => .refused r

end Sys2Proof.Machine
end

