-- ==== Sys2Proof/Machine/Assembler.lean ====
section
/-! DEFINITION. The assembler syntax and the pseudo-instructions: 30_encoding.md R88, R89. What R88 leaves to the reader
(blanks, digit case, where a comma may stand) is log 14. -/

namespace Sys2Proof

/-- The value of a hexadecimal digit. -/
def hexValue (c : Char) : Option Nat :=
  if 48 ≤ c.toNat ∧ c.toNat ≤ 57 then some (c.toNat - 48)
  else if 97 ≤ c.toNat ∧ c.toNat ≤ 102 then some (c.toNat - 87)
  else if 65 ≤ c.toNat ∧ c.toNat ≤ 70 then some (c.toNat - 55)
  else none

/-- Hexadecimal digits, two a byte, byte 0 first (R88). -/
def hexBytes : List Char → Option (List Byte)
  | [] => some []
  | [_] => none
  | a :: b :: rest =>
    match hexValue a, hexValue b, hexBytes rest with
    | some x, some y, some bytes => some (BitVec.ofNat 8 (16 * x + y) :: bytes)
    | _, _, _ => none

/-- An operand of exactly `n` bytes. -/
def hexOperand (n : Nat) (digits : List Char) : Option (List Byte) :=
  match hexBytes digits with
  | some bytes => if bytes.length = n then some bytes else none
  | none => none

/-- Ends a word that is being read. -/
def endWord (word : List Char) (rest : List (List Char)) : List (List Char) :=
  if word = [] then rest else word :: rest

/-- The words of a line after `word`: blanks separate words, a comma is a word of its own, a semicolon starts a comment
that runs to the end of the line (R88). -/
def wordsOf (word : List Char) : List Char → List (List Char)
  | [] => endWord word []
  | c :: cs =>
    if c = ';' then endWord word []
    else if c = ' ' ∨ c = '\t' then endWord word (wordsOf [] cs)
    else if c = ',' then endWord word ([','] :: wordsOf [] cs)
    else wordsOf (word ++ [c]) cs

/-- A line of a program (R88, R89). -/
inductive AsmLine where
  /-- Nothing but blanks and a comment. -/
  | blank
  /-- One of the seven commands. -/
  | command (i : Instr)
  /-- `KENC key, block`. -/
  | kenc (key : MasterKey) (block : Block)
  /-- `KDEC key, block`. -/
  | kdec (key : MasterKey) (block : Block)
  /-- `RESET`. -/
  | reset
  deriving DecidableEq, Repr

/-- The spelling of a mnemonic. -/
def Mnemonic.text : Mnemonic → List Char
  | .SCHF => ['S', 'C', 'H', 'F']
  | .SCHR => ['S', 'C', 'H', 'R']
  | .ENC => ['E', 'N', 'C']
  | .DEC => ['D', 'E', 'C']
  | .WRRK => ['W', 'R', 'R', 'K']
  | .RDRK => ['R', 'D', 'R', 'K']
  | .RDST => ['R', 'D', 'S', 'T']

/-- The mnemonic a word spells, in capitals. -/
def mnemonicOf (word : List Char) : Option Mnemonic :=
  [Mnemonic.SCHF, .SCHR, .ENC, .DEC, .WRRK, .RDRK, .RDST].find? fun m => m.text == word

/-- A command line: the mnemonic and the operand its format has (R88). -/
def parseCommand (word : List Char) (operands : List (List Char)) : Option Instr :=
  match mnemonicOf word, operands with
  | some m, [] => if m.row.format = .Z then some (assembleOperand [] m) else none
  | some m, [digits] =>
    match m.row.format, hexOperand (m.row.format.length - 1) digits with
    | .Z, _ => none
    | _, some bytes => some (assembleOperand bytes m)
    | _, none => none
  | _, _ => none

/-- The two operands of KENC and KDEC (R89). -/
def parsePair (line : MasterKey → Block → AsmLine) (key block : List Char) : Option AsmLine :=
  match hexOperand 32 key, hexOperand 16 block with
  | some k, some b => some (line (ofBytes 256 k) (ofBytes 128 b))
  | _, _ => none

/-- A line of text, if it is one of R88 or R89. -/
def parseLine (text : List Char) : Option AsmLine :=
  match wordsOf [] text with
  | [] => some .blank
  | [['R', 'E', 'S', 'E', 'T']] => some .reset
  | [['K', 'E', 'N', 'C'], key, [','], block] => parsePair .kenc key block
  | [['K', 'D', 'E', 'C'], key, [','], block] => parsePair .kdec key block
  | word :: operands => (parseCommand word operands).map .command

/-- What the host does for a line: the fixed expansions of R89, each command as its frame (R81). -/
def AsmLine.actions : AsmLine → List Machine.HostAction
  | .blank => []
  | .command i => [.send (encode i)]
  | .kenc key block => [.send (encode (.schf key)), .send (encode (.enc block))]
  | .kdec key block => [.send (encode (.schr key)), .send (encode (.dec block))]
  | .reset => [.reset]

/-- The lower-case digit of a value below 16. -/
def hexDigit (n : Nat) : Char := Char.ofNat (if n < 10 then 48 + n else 87 + n)

/-- The two digits of each byte, byte 0 first (R88). -/
def hexText (bytes : List Byte) : List Char :=
  bytes.flatMap fun b => [hexDigit (b.toNat / 16), hexDigit (b.toNat % 16)]

/-- The line of a command as R88 writes it. -/
def Instr.text (i : Instr) : List Char :=
  match i.payload with
  | [] => i.mnemonic.text
  | payload => i.mnemonic.text ++ ' ' :: hexText payload

end Sys2Proof
end

