-- ==== Sys2Proof/Safety.lean ====
section
/-! DEFINITION. The terms claims are stated in: the contract of `TABLES` (20_memory.md R56 to R58), the pseudocode of R86
and R140 as the spec writes them, each command's effect by its rule, the states a run can be in, and what a run lets
the host see. -/

namespace Sys2Proof

/-- What the rules use of the contract of the tables, for a given `M` and `MINV` (R60): `S` and `SINV` mutually inverse
(R56), `M` linear over exclusive-or with inverse `MINV` (R57), and the table identities (R57, R58). -/
structure Tables.LinearContractWith (T : Tables) (M MINV : Block → Block) : Prop where
  /-- `SINV[S[x]] = x` (R56). -/
  sinv_s : ∀ x, readSINV T (readS T x) = x
  /-- `S[SINV[x]] = x` (R56). -/
  s_sinv : ∀ x, readS T (readSINV T x) = x
  /-- `M(A ^ B) = M(A) ^ M(B)` (R57). -/
  linear : ∀ A B, M (X A B) = X (M A) (M B)
  /-- `MINV` is the inverse of `M` (R57). -/
  minv_m : ∀ B, MINV (M B) = B
  m_minv : ∀ B, M (MINV B) = B
  /-- `LTF[p][v] = M(e(p, S[v]))` (R57). -/
  ltf : ∀ p v, blk (readLTF T p v) = M (unitBlock p (readS T v))
  /-- `LTI[p][v] = MINV(e(p, SINV[v]))` (R58, 90_conflicts.md C2). -/
  lti : ∀ p v, blk (readLTI T p v) = MINV (unitBlock p (readSINV T v))

/-- What the rules use of the contract, for some `M` and `MINV`: all that the statements about tables ask. -/
def Tables.LinearContract (T : Tables) : Prop := ∃ M MINV : Block → Block, T.LinearContractWith M MINV

/-- `mul` makes the 256 bytes a field whose addition is exclusive-or and whose one is `one`: a GF(2^8) (R57). Which of
its presentations it is, the document does not say: "the field's reduction polynomial and the matrix entries are not in
the document" (log 10). -/
structure FieldProduct (mul : Byte → Byte → Byte) (one : Byte) : Prop where
  assoc : ∀ a b c, mul a (mul b c) = mul (mul a b) c
  comm : ∀ a b, mul a b = mul b a
  distrib : ∀ a b c, mul a (b ^^^ c) = mul a b ^^^ mul a c
  one_mul : ∀ a, mul one a = a
  one_ne_zero : one ≠ 0
  inverse : ∀ a, a ≠ 0 → ∃ b, mul b a = one

/-- The contract of the tables as R56 to R58 give it: `M` is the 16×16 matrix `A` over GF(2^8), invertible with inverse
`MINV`. -/
structure Tables.ContractWith (T : Tables) (mul : Byte → Byte → Byte) (one : Byte) (A : Fin 16 → Fin 16 → Byte)
    (MINV : Block → Block) : Prop extends T.LinearContractWith (matrixOver mul A) MINV where
  field : FieldProduct mul one

/-- `TABLES` meets the contract of R56 to R58. -/
def Tables.Contract (T : Tables) : Prop :=
  ∃ (mul : Byte → Byte → Byte) (one : Byte) (A : Fin 16 → Fin 16 → Byte) (MINV : Block → Block),
    T.ContractWith mul one A MINV

/-- `scheduleForward` with the counter `c` of R140 running on from pair to pair (10_state.md R26): the entries so far,
then `c`. -/
def countedFeistel (T : Tables) (x : (Block × Block) × Nat) : (Block × Block) × Nat :=
  (FEISTEL T (Fin.ofNat 32 x.2) x.1, x.2 + 1)

/-- One turn of R140's outer loop: the last pair is copied, eight rounds run, the new pair is appended. -/
def countedPair (T : Tables) (x : List (Block × Block) × Nat) : List (Block × Block) × Nat :=
  let y := (countedFeistel T)^[8] (x.1.getLastD (0, 0), x.2)
  (x.1 ++ [y.1], y.2)

/-- The five pairs of the forward schedule, and the counter at the end. -/
def countedSchedule (T : Tables) (K : MasterKey) : List (Block × Block) × Nat :=
  (countedPair T)^[4] ([(keyLow K, keyHigh K)], 0)

namespace Machine

/-- What R86 makes of a frame. -/
inductive Admission where
  | discard
  | raise (c : FaultCause)
  | run (i : Instr)
  deriving DecidableEq, Repr

/-- `LEN` of R86: 33, 33, 17, 17, 161, 1, 1. -/
def frameLength (op : Byte) : Nat := [33, 33, 17, 17, 161, 1, 1].getD (op.toNat - 1) 0

/-- The command of an opcode with its operand (R82, R83). -/
def commandOf (op : Byte) (payload : List Byte) : Instr :=
  if op = 0x01 then .schf (ofBytes 256 payload)
  else if op = 0x02 then .schr (ofBytes 256 payload)
  else if op = 0x03 then .enc (ofBytes 128 payload)
  else if op = 0x04 then .dec (ofBytes 128 payload)
  else if op = 0x05 then .wrrk (scheduleOfBytes payload)
  else if op = 0x06 then .rdrk
  else .rdst

/-- The decoder of R86, test by test in the spec's order. -/
def admission (st : Status) (frame : Frame) : Admission :=
  if faultOf st then (if frame.length = 1 ∧ frame.head? = some 0x07 then .run .rdst else .discard)
  else
    match frame with
    | [] => .raise .sizeViolation
    | op :: payload =>
      if ¬ (0x01 ≤ op ∧ op ≤ 0x07) then .raise .illegalOpcode
      else if frame.length ≠ frameLength op then .raise .sizeViolation
      else if (op = 0x03 ∨ op = 0x04 ∨ op = 0x06) ∧ kstOf st = .EMPTY then .raise .noSchedule
      else .run (commandOf op payload)

/-- What the rule of each command does to the registers that hold a value after it, with the pure functions of the spec
(R143, R145, R161, R163, R180 to R182). -/
def effect (i : Instr) (s : State) : State :=
  match i with
  | .schf key => { s with rk := scheduleForward s.tables key, st := setKst .FWD s.st }
  | .schr key => { s with rk := scheduleReverse s.tables key, st := setKst .REV s.st }
  | .enc block =>
    let c := encryptBlock s.tables s.rk block
    { s with blk := c, output := s.output ++ [blockBytes c] }
  | .dec block =>
    let p := decryptBlock s.tables s.rk block
    { s with blk := p, output := s.output ++ [blockBytes p] }
  | .wrrk schedule => { s with rk := schedule, st := setKst .RAW s.st }
  | .rdrk => { s with output := s.output ++ [scheduleBytes s.rk] }
  | .rdst => { s with output := s.output ++ [[s.st]] }

/-- The commands that read the round-key store: ENC, DEC, RDRK (R203). -/
def readsStore : Instr → Bool
  | .enc _ => true
  | .dec _ => true
  | .rdrk => true
  | .schf _ => false
  | .schr _ => false
  | .wrrk _ => false
  | .rdst => false

/-- The commands that write it: SCHF, SCHR, WRRK (R23). -/
def writesStore : Instr → Bool
  | .schf _ => true
  | .schr _ => true
  | .wrrk _ => true
  | .enc _ => false
  | .dec _ => false
  | .rdrk => false
  | .rdst => false

/-- The length of a command's response, if it has one (R84). -/
def responseLength : Instr → Option Nat
  | .schf _ => none
  | .schr _ => none
  | .enc _ => some 16
  | .dec _ => some 16
  | .wrrk _ => none
  | .rdrk => some 160
  | .rdst => some 1

/-- A run that has met a fault: "never the final state of a correct program" (R209). -/
def State.failed (s : State) : Bool := faultOf s.st

/-- The values `ST` can have: reserved bits 0, `FCAUSE` nonzero exactly when `FAULT` = 1 (R24), and `NoSchedule` only
with `KST` = `EMPTY` (R182). -/
def legalStatus (st : Status) : Prop :=
  reservedOf st = 0 ∧ (faultOf st = true ↔ fcauseOf st ≠ 0) ∧ (fcauseOf st = 3 → kstOf st = .EMPTY)

/-- What holds of every state of a run: the status is legal and every response has the length of one (R84). -/
def State.Inv (s : State) : Prop :=
  legalStatus s.st ∧ ∀ r ∈ s.output, r.length = 1 ∨ r.length = 16 ∨ r.length = 160

/-- Two states no command tells apart: they may differ in `BLK`, `ACC`, `W`, the model's counter, and, while the store
is empty, in `RK` (R9, R13, R31). -/
def Indistinguishable (s t : State) : Prop :=
  s.tables = t.tables ∧ s.st = t.st ∧ s.input = t.input ∧ s.output = t.output ∧
    (kstOf s.st ≠ .EMPTY → s.rk = t.rk)

end Machine

end Sys2Proof
end

