-- ==== Sys2Proof/Certificates/Slice0/Obligations.lean ====
section
/-! DEFINITION. The statements for the provers. Each docstring names the rules of spec/ it formalises. Where a hidden
register "holds no value" after a command, the statement says only that some value stands there. -/

open Sys2Proof Sys2Proof.Machine

/-! ### Encoding -/

/-- 30_encoding.md R81, R82, R83: decoding the frame of a command gives the command back, operand and all. -/
def Obligations.DecodeInvertsEncode : Prop :=
  ∀ i : Instr, i.wellFormed = true → decode (encode i) = .ok i

/-- 30_encoding.md R81, R82, R87: a frame that decodes to a command is that command's one encoding. -/
def Obligations.EncodeInvertsDecode : Prop :=
  ∀ (f : Frame) (i : Instr), decode f = .ok i → encode i = f

/-- 30_encoding.md R85: an empty frame, an illegal opcode whatever the length, a legal opcode at a wrong length; every
other frame is a command. -/
def Obligations.EveryFrameIsACommandOrAFault : Prop :=
  decode [] = .error .sizeViolation ∧
  ∀ (op : Byte) (payload : List Byte),
    (¬(0x01 ≤ op ∧ op ≤ 0x07) → decode (op :: payload) = .error .illegalOpcode) ∧
    (0x01 ≤ op ∧ op ≤ 0x07 → payload.length + 1 ≠ frameLength op → decode (op :: payload) = .error .sizeViolation) ∧
    (0x01 ≤ op ∧ op ≤ 0x07 → payload.length + 1 = frameLength op →
      ∃ i, decode (op :: payload) = .ok i ∧ encode i = op :: payload)

/-- 30_encoding.md R81, R82: frames written out byte by byte. -/
def Obligations.SpelledOutFramesDecode : Prop :=
  decode [0x06] = .ok .rdrk ∧ decode [0x07] = .ok .rdst ∧
  decode [0x03, 0x11, 0x22, 0x33, 0x44, 0x55, 0x66, 0x77, 0x00, 0xff, 0xee, 0xdd, 0xcc, 0xbb, 0xaa, 0x99, 0x88] =
    .ok (.enc 0x8899aabbccddeeff0077665544332211) ∧
  decode [0x04, 0x7f, 0x67, 0x9d, 0x90, 0xbe, 0xbc, 0x24, 0x30, 0x5a, 0x46, 0x8d, 0x42, 0xb9, 0xd4, 0xed, 0xcd] =
    .ok (.dec 0xcdedd4b9428d465a3024bcbe909d677f)

/-- 20_memory.md R52: payload byte `j` is byte `j` of the block or key, byte `16 i + j` is `RK[i][j]`, in commands and in
responses; and the two blocks of a key (41_key_schedule.md R140). -/
def Obligations.WireOrderIsByteZeroFirst : Prop :=
  (∀ l : List Byte, l.length = 16 →
    ∃ B : Block, decode (0x03 :: l) = .ok (.enc B) ∧ decode (0x04 :: l) = .ok (.dec B) ∧
      ∀ j : Fin 16, byteAt B j = l.getD j 0) ∧
  (∀ l : List Byte, l.length = 32 →
    ∃ K : MasterKey, decode (0x01 :: l) = .ok (.schf K) ∧ decode (0x02 :: l) = .ok (.schr K) ∧
      (∀ j : Fin 32, K.extractLsb' (8 * j) 8 = l.getD j 0) ∧
      ∀ j : Fin 16, byteAt (keyLow K) j = l.getD j 0 ∧ byteAt (keyHigh K) j = l.getD (16 + j) 0) ∧
  (∀ l : List Byte, l.length = 160 →
    ∃ Q : Schedule, decode (0x05 :: l) = .ok (.wrrk Q) ∧
      ∀ (i : Fin 10) (j : Fin 16), byteAt Q[i] j = l.getD (16 * i + j) 0) ∧
  (∀ (B : Block) (j : Fin 16), (blockBytes B).length = 16 ∧ (blockBytes B).getD j 0 = byteAt B j) ∧
  (∀ (Q : Schedule) (i : Fin 10) (j : Fin 16),
    (scheduleBytes Q).length = 160 ∧ (scheduleBytes Q).getD (16 * i + j) 0 = byteAt Q[i] j)

/-- 00_scope.md R11: the halves of a block are little-endian, `blk` is their inverse, and `e(p, v)` has `v` at position
`p` and zero elsewhere. -/
def Obligations.HalvesAreLittleEndian : Prop :=
  (∀ (B : Block) (k : Fin 8),
    (hl B).extractLsb' (8 * k) 8 = byteAt B ⟨k, by omega⟩ ∧ (hr B).extractLsb' (8 * k) 8 = byteAt B ⟨8 + k, by omega⟩) ∧
  (∀ B : Block, blk ⟨hl B, hr B⟩ = B) ∧
  (∀ h : Halves, hl (blk h) = h.l ∧ hr (blk h) = h.r) ∧
  (∀ (p k : Fin 16) (v : Byte), byteAt (unitBlock p v) k = if k = p then v else 0)

/-! ### The tables and the pure functions -/

/-- 20_memory.md R55: the flat image of each read-only memory. -/
def Obligations.RomImageLayout : Prop :=
  ∀ T : Tables,
    (∀ v : Byte, (imageS T).getD v.toNat 0 = readS T v ∧ (imageSINV T).getD v.toNat 0 = readSINV T v) ∧
    (∀ (p : Fin 16) (v : Byte) (k : Fin 8),
      (imageLTF T).getD (((p * 256 + v.toNat) * 2 + 0) * 8 + k) 0 = (readLTF T p v).l.extractLsb' (8 * k) 8 ∧
      (imageLTF T).getD (((p * 256 + v.toNat) * 2 + 1) * 8 + k) 0 = (readLTF T p v).r.extractLsb' (8 * k) 8 ∧
      (imageLTI T).getD (((p * 256 + v.toNat) * 2 + 0) * 8 + k) 0 = (readLTI T p v).l.extractLsb' (8 * k) 8 ∧
      (imageLTI T).getD (((p * 256 + v.toNat) * 2 + 1) * 8 + k) 0 = (readLTI T p v).r.extractLsb' (8 * k) 8) ∧
    (∀ (p : Fin 16) (v : Byte) (k : Fin 16),
      (imageLTF T).getD ((p * 256 + v.toNat) * 16 + k) 0 = byteAt (blk (readLTF T p v)) k ∧
      (imageLTI T).getD ((p * 256 + v.toNat) * 16 + k) 0 = byteAt (blk (readLTI T p v)) k) ∧
    (∀ (c : Fin 32) (k : Fin 16), (imageRC T).getD (16 * c + k) 0 = byteAt (readRC T c) k)

/-- 20_memory.md R64 to R67, the default tables (general knowledge there, log 2): the matrices `MM` and `MMI` are sixteen
steps of `R` and of its inverse, and the round constants are `M(e(15, c+1))`. -/
def Obligations.DefaultMatricesAreSixteenSteps : Prop :=
  (∀ B : Block, stepRInv (stepR B) = B ∧ stepR (stepRInv B) = B) ∧
  (∀ B : Block, standardM B = matrixTimes MM B ∧ standardMINV B = matrixTimes MMI B) ∧
  (∀ c : Fin 32, readRC defaultTables c = standardM (unitBlock 15 (BitVec.ofNat 8 (c + 1))))

/-- 40_primitives.md R110: the exclusive-or of blocks, byte by byte and half by half, and its laws. -/
def Obligations.BlockXorLaws : Prop :=
  (∀ (A B : Block) (k : Fin 16), byteAt (X A B) k = byteAt A k ^^^ byteAt B k) ∧
  (∀ A B : Block, hl (X A B) = hl A ^^^ hl B ∧ hr (X A B) = hr A ^^^ hr B) ∧
  (∀ A : Block, X A A = 0 ∧ X A 0 = A) ∧
  (∀ A B : Block, X A B = X B A ∧ X (X A B) B = A) ∧
  (∀ A B C : Block, X (X A B) C = X A (X B C)) ∧
  X (blockOfDigits 0x1122334455667700ffeeddccbbaa9988) (blockOfDigits 0x8899aabbccddeeff0011223344556677) =
    blockOfDigits 0x99bb99ff99bb99ffffffffffffffffff

/-- 40_primitives.md R111 to R114, R119: `SUB` and `ISUB` are sixteen independent byte lanes; `LS` and `ILS` are, byte by
byte, the XOR of the table entries the sixteen bytes select, in whatever order they are looked up. -/
def Obligations.TransformsFollowTheirTables : Prop :=
  ∀ (T : Tables) (B : Block) (k : Fin 16),
    byteAt (SUB T B) k = readS T (byteAt B k) ∧ byteAt (ISUB T B) k = readSINV T (byteAt B k) ∧
    ∀ ps : List (Fin 16), ps.Perm positions →
      byteAt (LS T B) k = ps.foldl (fun a p => a ^^^ byteAt (blk (readLTF T p (byteAt B p))) k) 0 ∧
      byteAt (ILS T B) k = ps.foldl (fun a p => a ^^^ byteAt (blk (readLTI T p (byteAt B p))) k) 0

/-- 40_primitives.md R116, identities 1 to 5, for tables that meet what 20_memory.md R60 says the rules use of the contract,
which every table that meets R56 to R58 does (`Laws.Contract_linear`). -/
def Obligations.TransformIdentities : Prop :=
  ∀ (T : Tables) (M MINV : Block → Block), T.LinearContractWith M MINV → ∀ A B K Y : Block,
    (LS T B = M (SUB T B) ∧ ILS T B = MINV (ISUB T B)) ∧
    (ILS T (SUB T B) = MINV B ∧ LS T (ISUB T B) = M B) ∧
    (MINV (X A B) = X (MINV A) (MINV B) ∧
      ILS T (SUB T (X A B)) = X (ILS T (SUB T A)) (ILS T (SUB T B))) ∧
    (MINV (LS T B) = SUB T B ∧ ILS T (SUB T (LS T B)) = SUB T B ∧ ISUB T (ILS T (SUB T (LS T B))) = B) ∧
    (MINV (X (ISUB T Y) K) = X (ILS T Y) (MINV K) ∧ MINV K = ILS T (SUB T K))

/-- 40_primitives.md R111, R113, 42_block_engine.md R160, R162: with tables that meet what R60 says the rules use of
the contract the transforms are bijections on blocks, and so are `encryptBlock` and `decryptBlock` for every fixed
schedule. -/
def Obligations.TransformsAreBijections : Prop :=
  ∀ T : Tables, T.LinearContract →
    Function.Bijective (SUB T) ∧ Function.Bijective (ISUB T) ∧ Function.Bijective (LS T) ∧ Function.Bijective (ILS T) ∧
    ∀ Q : Schedule, Function.Bijective (encryptBlock T Q) ∧ Function.Bijective (decryptBlock T Q)

/-- 40_primitives.md R117, 41_key_schedule.md R140, 42_block_engine.md R160, R162: which tables each function reads. The
forward schedule reads `RC` and `LTF` only, encryption `LTF` only, decryption `S`, `SINV` and `LTI` only, and the
reverse schedule no `SINV`. -/
def Obligations.FunctionsReadOnlyTheirTables : Prop :=
  ∀ T U : Tables,
    (T.ltf = U.ltf → T.rc = U.rc → ∀ K, scheduleForward T K = scheduleForward U K) ∧
    (T.ltf = U.ltf → T.rc = U.rc → T.s = U.s → T.lti = U.lti → ∀ K, scheduleReverse T K = scheduleReverse U K) ∧
    (T.ltf = U.ltf → ∀ Q P, encryptBlock T Q P = encryptBlock U Q P) ∧
    (T.s = U.s → T.sinv = U.sinv → T.lti = U.lti → ∀ Q C, decryptBlock T Q C = decryptBlock U Q C)

/-- 41_key_schedule.md R140, R142 and 10_state.md R26: with the counter `c` running on over all four pairs the same ten
keys result, and `c` ends at 32. -/
def Obligations.ConstantCounterRunsOn : Prop :=
  ∀ (T : Tables) (K : MasterKey),
    (countedSchedule T K).2 = 32 ∧
    (countedSchedule T K).1.flatMap (fun p => [p.1, p.2]) = (scheduleForward T K).toList

/-- 41_key_schedule.md R146: entries 0 and 9 of the two schedules agree, entries 1 to 8 of the reverse one are the
substitute-then-inverse-LS transform of the forward ones. -/
def Obligations.KeyScheduleStability : Prop :=
  ∀ (T : Tables) (K : MasterKey),
    (∀ i : Fin 10, i = 0 ∨ i = 9 → (scheduleReverse T K)[i] = (scheduleForward T K)[i]) ∧
    (∀ i : Fin 10, 1 ≤ i → i ≤ 8 → (scheduleReverse T K)[i] = ILS T (SUB T (scheduleForward T K)[i]))

/-- 41_key_schedule.md R147: the forward schedule is recovered from the reverse one, and the key from either; of the tables
only what R60 says the rules use is asked. -/
def Obligations.ForwardScheduleIsRecoverable : Prop :=
  ∀ T : Tables, T.LinearContract → ∀ K : MasterKey,
    (∀ i : Fin 10, 1 ≤ i → i ≤ 8 → (scheduleForward T K)[i] = LS T (ISUB T (scheduleReverse T K)[i])) ∧
    (∀ i : Fin 10, i = 0 ∨ i = 9 → (scheduleForward T K)[i] = (scheduleReverse T K)[i]) ∧
    K = (scheduleForward T K)[1] ++ (scheduleForward T K)[0] ∧
    K = LS T (ISUB T (scheduleReverse T K)[1]) ++ (scheduleReverse T K)[0]

/-! ### The datapath -/

/-- 41_key_schedule.md R141: one Feistel round on `W[0..3]`, and its inverse. -/
def Obligations.FeistelRound : Prop :=
  ∀ (T : Tables) (c : Fin 32) (d : Datapath),
    (opFEISTEL T c d).w =
      ⟨X d.w.r (LS T (X d.w.l (readRC T c))), d.w.l, X d.w.l (readRC T c), LS T (X d.w.l (readRC T c))⟩ ∧
    (let e := (opFEISTEL T c d).w
     (d.w.l, d.w.r) = (e.r, X e.l (LS T (X e.r (readRC T c)))))

/-- 41_key_schedule.md R140, R144, 42_block_engine.md R160, R162: run on the hidden registers, the pseudocode computes the
pure functions, whatever the registers and the store held before. -/
def Obligations.DatapathComputesThePureFunctions : Prop :=
  ∀ (T : Tables) (K : MasterKey) (RK Q : Schedule) (B : Block) (d : Datapath),
    (opScheduleForward T K RK d).1 = scheduleForward T K ∧
    (opScheduleReverse T K RK d).1 = scheduleReverse T K ∧
    (opEncryptBlock T Q B d).1 = encryptBlock T Q B ∧
    (opDecryptBlock T Q B d).1 = decryptBlock T Q B

/-- 70_reset_and_hazards.md R241: the operation counts of the four cipher commands (columns LS, ILS, LTF, LTI, S, SINV,
RC, XORs). -/
def Obligations.OperationCounts : Prop :=
  ∀ (T : Tables) (K : MasterKey) (RK Q : Schedule) (B : Block) (d : Datapath),
    (opEncryptBlock T Q B d).2.ops = d.ops.add ⟨9, 0, 288, 0, 0, 0, 0, 10⟩ ∧
    (opDecryptBlock T Q B d).2.ops = d.ops.add ⟨0, 9, 0, 288, 16, 16, 0, 10⟩ ∧
    (opScheduleForward T K RK d).2.ops = d.ops.add ⟨32, 0, 1024, 0, 0, 0, 32, 64⟩ ∧
    (opScheduleReverse T K RK d).2.ops = d.ops.add ⟨32, 8, 1024, 256, 128, 0, 32, 64⟩

/-! ### The status byte, faults and reset -/

/-- 10_state.md R24: `KST` is bits 1:0, `FAULT` bit 2, `FCAUSE` bits 4:3, the rest reserved; writing `KST`, or `FAULT` and
`FCAUSE`, leaves every other bit alone. -/
def Obligations.StatusByteLayout : Prop :=
  ∀ st : Status,
    st.toNat = (kstOf st).code.toNat + 4 * (faultOf st).toNat + 8 * (fcauseOf st).toNat + 32 * (reservedOf st).toNat ∧
    (∀ k : ScheduleKind, (setKst k st).toNat = st.toNat - (kstOf st).code.toNat + k.code.toNat) ∧
    (∀ c : FaultCause, (setFault c st).toNat = (kstOf st).code.toNat + 4 + 8 * c.code.toNat + 32 * (reservedOf st).toNat)

/-- 60_exceptions.md R207: a frame that faults sets `FAULT` and `FCAUSE` and changes nothing else. -/
def Obligations.FaultEntry : Prop :=
  ∀ (s : State) (f : Frame) (rest : List Frame) (c : FaultCause),
    s.input = f :: rest → admission s.st f = .raise c →
    step s = .next { s with input := rest, st := setFault c s.st } ∧
    faultOf (setFault c s.st) = true ∧ fcauseOf (setFault c s.st) = c.code.setWidth 2 ∧
    kstOf (setFault c s.st) = kstOf s.st ∧ reservedOf (setFault c s.st) = reservedOf s.st

/-- 60_exceptions.md R209: while `FAULT` = 1 a frame that is exactly the byte 0x07 is answered with `ST`, every other
frame is removed and has no effect. -/
def Obligations.FaultedCoreAnswersOnlyStatus : Prop :=
  ∀ (s : State) (f : Frame) (rest : List Frame), faultOf s.st = true → s.input = f :: rest →
    (f = [0x07] → step s = .next { s with input := rest, output := s.output ++ [[s.st]] }) ∧
    (f ≠ [0x07] → step s = .next { s with input := rest })

/-- 60_exceptions.md R208: reset is the only way out of the faulted state, and it clears `ST` and empties the store. -/
def Obligations.OnlyResetLeavesTheFaultedState : Prop :=
  (∀ (e : Event) (s t : State), systemStep e s = .next t → faultOf s.st = true → e ≠ .host .reset →
    faultOf t.st = true ∧ t.st = s.st) ∧
  (∀ s t : State, systemStep (.host .reset) s = .next t → t.st = 0x00 ∧ kstOf t.st = .EMPTY)

/-- 60_exceptions.md R203: ENC, DEC and RDRK fault with `NoSchedule` while no schedule has been written. -/
def Obligations.NoScheduleBeforeUse : Prop :=
  ∀ (i : Instr) (s : State), readsStore i = true → faultOf s.st = false → kstOf s.st = .EMPTY →
    exec i s = .next { s with st := setFault .noSchedule s.st }

/-- 10_state.md R29, 70_reset_and_hazards.md R230: a reset clears all of `ST`, so that the store counts as empty, and keeps
`TABLES`, `IN` and `OUT`. What `RK`, `BLK`, `ACC` and `W` hold after it is the model's choice (log 3) and not stated. -/
def Obligations.ResetClearsStatusKeepsStreams : Prop :=
  ∀ s : State, (hostReset s).st = 0x00 ∧ kstOf (hostReset s).st = .EMPTY ∧ faultOf (hostReset s).st = false ∧
    fcauseOf (hostReset s).st = 0 ∧ reservedOf (hostReset s).st = 0 ∧
    (hostReset s).tables = s.tables ∧ (hostReset s).input = s.input ∧ (hostReset s).output = s.output

/-- 70_reset_and_hazards.md R230: after a reset the core behaves identically whatever happened before: the same host
actions get the same responses. -/
def Obligations.ResetForgetsThePast : Prop :=
  ∀ (s t : State), s.tables = t.tables → s.input = t.input → s.output = t.output → ∀ es : List Event,
    ∃ s' t', systemRun es (hostReset s) = .next s' ∧ systemRun es (hostReset t) = .next t' ∧ s'.output = t'.output

/-! ### The step -/

/-- 30_encoding.md R80: a step takes the frame at the head of `IN` and executes the command it decodes to. -/
def Obligations.StepRunsTheDecodedCommand : Prop :=
  ∀ (s : State) (f : Frame) (rest : List Frame) (i : Instr), s.input = f :: rest → decode f = .ok i →
    step s = exec i { s with input := rest }

/-- 30_encoding.md R86, 60_exceptions.md R206: the step is the spec's decoder, test by test in its order, then nothing,
fault entry, or the effect the command's rule gives (`ACC` and `W` with some value after it). -/
def Obligations.StepFollowsTheDecoderPseudocode : Prop :=
  ∀ (s : State) (f : Frame) (rest : List Frame), s.input = f :: rest →
    match admission s.st f with
    | .discard => step s = .next { s with input := rest }
    | .raise c => step s = .next { s with input := rest, st := setFault c s.st }
    | .run i => ∃ (a : Halves) (w : Scratch) (n : Nat),
        step s = .next { effect i { s with input := rest } with acc := a, w := w, freeCount := n }

/-- 30_encoding.md R80, R86: no state and no frame stops the core; with nothing in `IN` it waits and all state survives
(the model's choice, log 5). -/
def Obligations.EveryStepHasANextState : Prop :=
  ∀ s : State, (∃ t, step s = .next t) ∧ (s.input = [] → step s = .next s)

/-! ### The commands -/

/-- 41_key_schedule.md R143. -/
def Obligations.SchfWritesTheForwardSchedule : Prop :=
  (∀ (key : MasterKey) (s : State), faultOf s.st = false →
    ∃ (a : Halves) (w : Scratch) (n : Nat), exec (.schf key) s = .next { s with
      rk := scheduleForward s.tables key, st := setKst .FWD s.st, acc := a, w := w, freeCount := n }) ∧
  (∀ payload : List Byte,
    (payload.length = 32 → decode (0x01 :: payload) = .ok (.schf (ofBytes 256 payload))) ∧
    (payload.length ≠ 32 → decode (0x01 :: payload) = .error .sizeViolation))

/-- 41_key_schedule.md R145. -/
def Obligations.SchrWritesTheReverseSchedule : Prop :=
  (∀ (key : MasterKey) (s : State), faultOf s.st = false →
    ∃ (a : Halves) (w : Scratch) (n : Nat), exec (.schr key) s = .next { s with
      rk := scheduleReverse s.tables key, st := setKst .REV s.st, acc := a, w := w, freeCount := n }) ∧
  (∀ payload : List Byte,
    (payload.length = 32 → decode (0x02 :: payload) = .ok (.schr (ofBytes 256 payload))) ∧
    (payload.length ≠ 32 → decode (0x02 :: payload) = .error .sizeViolation))

/-- 42_block_engine.md R161. -/
def Obligations.EncEmitsTheEncryptedBlock : Prop :=
  (∀ (block : Block) (s : State), faultOf s.st = false → kstOf s.st ≠ .EMPTY →
    ∃ (a : Halves) (n : Nat), exec (.enc block) s = .next { s with
      blk := encryptBlock s.tables s.rk block,
      output := s.output ++ [blockBytes (encryptBlock s.tables s.rk block)], acc := a, freeCount := n }) ∧
  (∀ (block : Block) (s : State), faultOf s.st = false → kstOf s.st = .EMPTY →
    exec (.enc block) s = .next { s with st := setFault .noSchedule s.st }) ∧
  (∀ payload : List Byte,
    (payload.length = 16 → decode (0x03 :: payload) = .ok (.enc (ofBytes 128 payload))) ∧
    (payload.length ≠ 16 → decode (0x03 :: payload) = .error .sizeViolation))

/-- 42_block_engine.md R163. -/
def Obligations.DecEmitsTheDecryptedBlock : Prop :=
  (∀ (block : Block) (s : State), faultOf s.st = false → kstOf s.st ≠ .EMPTY →
    ∃ (a : Halves) (n : Nat), exec (.dec block) s = .next { s with
      blk := decryptBlock s.tables s.rk block,
      output := s.output ++ [blockBytes (decryptBlock s.tables s.rk block)], acc := a, freeCount := n }) ∧
  (∀ (block : Block) (s : State), faultOf s.st = false → kstOf s.st = .EMPTY →
    exec (.dec block) s = .next { s with st := setFault .noSchedule s.st }) ∧
  (∀ payload : List Byte,
    (payload.length = 16 → decode (0x04 :: payload) = .ok (.dec (ofBytes 128 payload))) ∧
    (payload.length ≠ 16 → decode (0x04 :: payload) = .error .sizeViolation))

/-- 43_transfer_status.md R180. -/
def Obligations.WrrkWritesTheStore : Prop :=
  (∀ (schedule : Schedule) (s : State), faultOf s.st = false →
    exec (.wrrk schedule) s = .next { s with rk := schedule, st := setKst .RAW s.st }) ∧
  (∀ payload : List Byte,
    (payload.length = 160 → decode (0x05 :: payload) = .ok (.wrrk (scheduleOfBytes payload))) ∧
    (payload.length ≠ 160 → decode (0x05 :: payload) = .error .sizeViolation))

/-- 43_transfer_status.md R181. -/
def Obligations.RdrkEmitsTheStore : Prop :=
  (∀ s : State, faultOf s.st = false → kstOf s.st ≠ .EMPTY →
    exec .rdrk s = .next { s with output := s.output ++ [scheduleBytes s.rk] }) ∧
  (∀ s : State, faultOf s.st = false → kstOf s.st = .EMPTY →
    exec .rdrk s = .next { s with st := setFault .noSchedule s.st }) ∧
  decode [0x06] = .ok .rdrk ∧
  (∀ payload : List Byte, payload ≠ [] → decode (0x06 :: payload) = .error .sizeViolation)

/-- 43_transfer_status.md R182: RDST emits `ST` in every state and changes nothing else; what the response can be in a
run. What every other frame meets while `FAULT` = 1 is `FaultedCoreAnswersOnlyStatus`. -/
def Obligations.RdstEmitsTheStatus : Prop :=
  (∀ s : State, exec .rdst s = .next { s with output := s.output ++ [[s.st]] }) ∧
  decode [0x07] = .ok .rdst ∧
  (∀ (s : State) (payload : List Byte) (rest : List Frame), payload ≠ [] → s.input = (0x07 :: payload) :: rest →
    step s = .next { s with
      input := rest, st := if faultOf s.st = true then s.st else setFault .sizeViolation s.st }) ∧
  (∀ s : State, s.Inv → s.st ∈ ([0x00, 0x01, 0x02, 0x03, 0x0c, 0x0d, 0x0e, 0x0f, 0x14, 0x15, 0x16, 0x17, 0x1c] :
    List Status))

/-- 43_transfer_status.md R180, R181: what RDRK emits is a WRRK payload that writes the same store. -/
def Obligations.ReadOutScheduleWritesBack : Prop :=
  ∀ s : State, faultOf s.st = false → kstOf s.st ≠ .EMPTY →
    ∃ (t : State) (payload : List Byte), exec .rdrk s = .next t ∧ t.output = s.output ++ [payload] ∧
      decode (0x05 :: payload) = .ok (.wrrk s.rk)

/-- 30_encoding.md R84, 70_reset_and_hazards.md R239: a command that executes without fault appends exactly the one response
its row names, or none; a command that faults or is discarded appends none. -/
def Obligations.OneResponsePerAnsweredCommand : Prop :=
  ∀ (i : Instr) (s : State), ∃ t, exec i s = .next t ∧
    (faultOf s.st = false → (readsStore i = true → kstOf s.st ≠ .EMPTY) →
      match responseLength i with
      | none => t.output = s.output
      | some n => ∃ r : Frame, r.length = n ∧ t.output = s.output ++ [r]) ∧
    (faultOf s.st = true → i ≠ .rdst → t = s) ∧
    (faultOf s.st = false → readsStore i = true → kstOf s.st = .EMPTY → t.output = s.output)

/-! ### The whole machine -/

/-- 42_block_engine.md R166: decryption under the reverse schedule inverts encryption under the forward one, for every
key, every block and all tables that meet what R60 says the proof uses of R56 to R58, so for all that meet R56 to R58
(`Laws.Contract_linear`); as functions, and as `SCHF K; ENC P` and then `SCHR K; DEC C` from any state without a fault. -/
def Obligations.RoundTrip : Prop :=
  (∀ T : Tables, T.LinearContract → ∀ (K : MasterKey) (P : Block),
    decryptBlock T (scheduleReverse T K) (encryptBlock T (scheduleForward T K) P) = P) ∧
  (∀ (s : State) (K : MasterKey) (P : Block), s.tables.LinearContract → faultOf s.st = false →
    ∃ (t : State) (C : Block),
      Sys2Proof.core.run 2 { s with input := [encode (.schf K), encode (.enc P)] } = .next t ∧
      t.output = s.output ++ [blockBytes C] ∧
      ∃ u : State,
        Sys2Proof.core.run 2 { t with input := [encode (.schr K), encode (.dec C)] } = .next u ∧
        u.output = t.output ++ [blockBytes P])

/-- 10_state.md R24, 43_transfer_status.md R182, 30_encoding.md R84: the status stays legal and every response has the
length of one, whatever the core and the host do. -/
def Obligations.InvariantKept : Prop :=
  ∀ (e : Event) (s t : State), s.Inv → systemStep e s = .next t → t.Inv

/-- The invariant holds after reset (10_state.md R29). -/
def Obligations.ResetMeetsTheInvariant : Prop := State.reset.Inv

/-- 00_scope.md R9, R13, 10_state.md R31, 70_reset_and_hazards.md R238: no response depends on `BLK`, `ACC`, `W`, or on a
store that holds no value: states that differ only there stay so and give the same responses under the same events. -/
def Obligations.HiddenRegistersNeverShow : Prop :=
  ∀ (es : List Event) (s t : State), Indistinguishable s t →
    ∃ s' t', systemRun es s = .next s' ∧ systemRun es t = .next t' ∧ Indistinguishable s' t' ∧ s'.output = t'.output

/-- 10_state.md R27, 70_reset_and_hazards.md R232: nothing that the core or the host does changes `TABLES`. -/
def Obligations.TablesNeverChange : Prop :=
  ∀ (e : Event) (s t : State), systemStep e s = .next t → t.tables = s.tables

/-- 10_state.md R23, R24: the round-key store and `KST` are written only by SCHF, SCHR and WRRK executing without fault
(and lost by a reset), `BLK` only by ENC and DEC. -/
def Obligations.StoreAndBlockHaveTheirWriters : Prop :=
  (∀ (i : Instr) (s t : State), exec i s = .next t → writesStore i = false →
    t.rk = s.rk ∧ kstOf t.st = kstOf s.st) ∧
  (∀ (i : Instr) (s t : State), exec i s = .next t → t.blk ≠ s.blk → ∃ b, i = .enc b ∨ i = .dec b) ∧
  (∀ (s t : State), step s = .next t → t.rk ≠ s.rk ∨ kstOf t.st ≠ kstOf s.st →
    ∃ (f : Frame) (rest : List Frame) (i : Instr), s.input = f :: rest ∧ decode f = .ok i ∧ writesStore i = true ∧
      faultOf s.st = false)

/-! ### The assembler syntax -/

/-- 30_encoding.md R88: the line of a command is read back as that command. -/
def Obligations.AssemblerReadsCommandLines : Prop :=
  ∀ i : Instr, parseLine i.text = some (.command i) ∧ (AsmLine.command i).actions = [.send (encode i)]

/-- 30_encoding.md R89: the pseudo-instructions and their fixed expansions. -/
def Obligations.PseudoInstructionsExpand : Prop :=
  (∀ (key : MasterKey) (block : Block),
    (parseLine (['K', 'E', 'N', 'C', ' '] ++ hexText (bytesOf 32 key) ++ [',', ' '] ++ hexText (blockBytes block))).map
      AsmLine.actions = some [.send (encode (.schf key)), .send (encode (.enc block))]) ∧
  (∀ (key : MasterKey) (block : Block),
    (parseLine (['K', 'D', 'E', 'C', ' '] ++ hexText (bytesOf 32 key) ++ [',', ' '] ++ hexText (blockBytes block))).map
      AsmLine.actions = some [.send (encode (.schr key)), .send (encode (.dec block))]) ∧
  (parseLine ['R', 'E', 'S', 'E', 'T']).map AsmLine.actions = some [.reset]

/-! ### The contract of the tables -/

/-- 20_memory.md R57, R58: what it means for tables that meet the whole contract that `M` is a 16×16 matrix over GF(2^8),
whichever presentation of the field (log 10): `M` maps zero to zero, `MINV` is a matrix over the same field and the
inverse matrix, and byte `i` of every linear-table entry is one product in the field. -/
def Obligations.ContractMapsAreMatrices : Prop :=
  ∀ (T : Tables) (mul : Byte → Byte → Byte) (one : Byte) (A : Fin 16 → Fin 16 → Byte) (MINV : Block → Block),
    T.ContractWith mul one A MINV →
    matrixOver mul A 0 = 0 ∧
    ∃ C : Fin 16 → Fin 16 → Byte,
      (∀ B, MINV B = matrixOver mul C B) ∧
      (∀ i q, fieldSum (fun p => mul (A i p) (C p q)) = if i = q then one else 0) ∧
      (∀ i q, fieldSum (fun p => mul (C i p) (A p q)) = if i = q then one else 0) ∧
      ∀ (p i : Fin 16) (v : Byte),
        byteAt (blk (readLTF T p v)) i = mul (A i p) (readS T v) ∧
        byteAt (blk (readLTI T p v)) i = mul (C i p) (readSINV T v)
end

