-- ==== Sys2Proof/Laws/Bytes.lean ====
section
/-! SUPPORT. Laws of bytes, halves, blocks and byte sequences (00_scope.md R10, R11; 20_memory.md R52). -/

namespace Sys2Proof.Laws

open Sys2Proof

theorem byteAt_getLsbD (B : Block) (k : Fin 16) (i : Nat) :
    (byteAt B k).getLsbD i = (decide (i < 8) && B.getLsbD (8 * k + i)) := by
  simp [byteAt, BitVec.getLsbD_extractLsb']

/-- Two blocks with the same bytes are the same block. -/
theorem block_ext {A B : Block} (h : ∀ k, byteAt A k = byteAt B k) : A = B := by
  apply BitVec.eq_of_getLsbD_eq
  intro i hi
  have hk := congrArg (fun b : Byte => b.getLsbD (i % 8)) (h ⟨i / 8, by omega⟩)
  have h8 : i % 8 < 8 := Nat.mod_lt _ (by decide)
  simp only [byteAt_getLsbD, h8, decide_true, Bool.true_and, Nat.div_add_mod] at hk
  exact hk

@[simp] theorem byteAt_xor (A B : Block) (k : Fin 16) : byteAt (A ^^^ B) k = byteAt A k ^^^ byteAt B k := by
  simp [byteAt, BitVec.extractLsb'_xor]

@[simp] theorem byteAt_zero (k : Fin 16) : byteAt 0 k = 0 := by
  simp [byteAt]

theorem ofBytes_getLsbD (w : Nat) (l : List Byte) (i : Nat) :
    (ofBytes w l).getLsbD i = (decide (i < w) && (l.getD (i / 8) 0).getLsbD (i % 8)) := by
  induction l generalizing i with
  | nil => simp [ofBytes]
  | cons b bs ih =>
    simp only [ofBytes, BitVec.getLsbD_or, BitVec.getLsbD_setWidth, BitVec.getLsbD_shiftLeft, ih]
    by_cases h8 : i < 8
    · have hd : i / 8 = 0 := Nat.div_eq_of_lt h8
      simp [h8, hd, Nat.mod_eq_of_lt h8]
    · obtain ⟨j, rfl⟩ : ∃ j, i = j + 8 := ⟨i - 8, by omega⟩
      have hd : (j + 8) / 8 = j / 8 + 1 := by omega
      have hj : j + 8 < w → j < w := by omega
      by_cases hw : j + 8 < w <;> simp [hd, hw, hj]

theorem getLsbD_extract_bytes {w : Nat} (x : BitVec w) (j i : Nat) :
    (x.extractLsb' (8 * j) 8).getLsbD i = (decide (i < 8) && x.getLsbD (8 * j + i)) := by
  simp [BitVec.getLsbD_extractLsb']

/-- Byte `j` of the register a byte sequence spells is byte `j` of the sequence. -/
theorem extract_ofBytes {w : Nat} (l : List Byte) (j : Nat) (h : 8 * j + 8 ≤ w) :
    (ofBytes w l).extractLsb' (8 * j) 8 = l.getD j 0 := by
  apply BitVec.eq_of_getLsbD_eq
  intro i hi
  have h1 : 8 * j + i < w := by omega
  have h2 : (8 * j + i) / 8 = j := by omega
  have h3 : (8 * j + i) % 8 = i := by omega
  rw [getLsbD_extract_bytes, ofBytes_getLsbD, h2, h3]
  simp [hi, h1]

@[simp] theorem byteAt_ofBytes (l : List Byte) (j : Fin 16) : byteAt (ofBytes 128 l) j = l.getD j 0 :=
  extract_ofBytes l j (by omega)

@[simp] theorem bytesOf_length {w : Nat} (n : Nat) (x : BitVec w) : (bytesOf n x).length = n := by
  simp [bytesOf]

theorem bytesOf_getD {w : Nat} (n : Nat) (x : BitVec w) (j : Nat) (h : j < n) :
    (bytesOf n x).getD j 0 = x.extractLsb' (8 * j) 8 := by
  simp [bytesOf, List.getD_eq_getElem?_getD, h]

/-- A register is the one its own bytes spell. -/
theorem ofBytes_bytesOf {w : Nat} (n : Nat) (x : BitVec w) (h : w = 8 * n) : ofBytes w (bytesOf n x) = x := by
  apply BitVec.eq_of_getLsbD_eq
  intro i hi
  have h1 : i / 8 < n := by omega
  have h2 : i % 8 < 8 := Nat.mod_lt _ (by decide)
  rw [ofBytes_getLsbD, bytesOf_getD n x _ h1, getLsbD_extract_bytes, Nat.div_add_mod]
  simp [hi, h2]

/-- A byte sequence of the right length is the one its own register sends. -/
theorem bytesOf_ofBytes {w : Nat} (n : Nat) (l : List Byte) (hl : l.length = n) (hw : 8 * n ≤ w) :
    bytesOf n (ofBytes w l) = l := by
  apply List.ext_getElem (by simp [hl])
  intro j h1 h2
  have hj : 8 * j + 8 ≤ w := by omega
  simp only [bytesOf, List.getElem_map, List.getElem_range, extract_ofBytes l j hj]
  simp [List.getD_eq_getElem?_getD, h2]

@[simp] theorem blockBytes_length (B : Block) : (blockBytes B).length = 16 := bytesOf_length 16 B

theorem blockBytes_getD (B : Block) (j : Fin 16) : (blockBytes B).getD j 0 = byteAt B j :=
  bytesOf_getD 16 B j j.isLt

@[simp] theorem ofBytes_blockBytes (B : Block) : ofBytes 128 (blockBytes B) = B := ofBytes_bytesOf 16 B rfl

theorem blockBytes_ofBytes (l : List Byte) (h : l.length = 16) : blockBytes (ofBytes 128 l) = l :=
  bytesOf_ofBytes 16 l h (by decide)

/-! Halves. -/

@[simp] theorem blk_halves (B : Block) : blk ⟨hl B, hr B⟩ = B := by
  apply BitVec.eq_of_getLsbD_eq
  intro i hi
  simp only [blk, hl, hr, BitVec.getLsbD_append, BitVec.getLsbD_extractLsb']
  by_cases h : i < 64
  · simp [h]
  · have h2 : i - 64 < 64 := by omega
    have h3 : 64 + (i - 64) = i := by omega
    simp [h, h2, h3]

@[simp] theorem hl_blk (h : Halves) : hl (blk h) = h.l := by
  apply BitVec.eq_of_getLsbD_eq
  intro i hi
  simp only [blk, hl, BitVec.getLsbD_extractLsb', BitVec.getLsbD_append]
  simp [hi]

@[simp] theorem hr_blk (h : Halves) : hr (blk h) = h.r := by
  apply BitVec.eq_of_getLsbD_eq
  intro i hi
  simp only [blk, hr, BitVec.getLsbD_extractLsb', BitVec.getLsbD_append]
  simp [hi]

/-- Byte `k` of the unit block `e(p, v)`. -/
theorem byteAt_unitBlock (p k : Fin 16) (v : Byte) : byteAt (unitBlock p v) k = if k = p then v else 0 := by
  apply BitVec.eq_of_getLsbD_eq
  intro i hi
  rw [byteAt_getLsbD]
  simp only [unitBlock, BitVec.getLsbD_shiftLeft, BitVec.getLsbD_setWidth, hi, decide_true, Bool.true_and]
  have h128 : 8 * (k : Nat) + i < 128 := by omega
  by_cases hkp : k = p
  · subst hkp
    simp [h128]
    omega
  · have hne : (k : Nat) ≠ p := fun h => hkp (Fin.ext h)
    by_cases hlt : (k : Nat) < p
    · have : 8 * (k : Nat) + i < 8 * p := by omega
      simp [hkp, this]
    · have hge : 8 ≤ 8 * (k : Nat) + i - 8 * p := by omega
      simp [hkp, BitVec.getLsbD_of_ge _ _ hge]

/-! Keys and schedules. -/

theorem keyHigh_append_keyLow (K : MasterKey) : keyHigh K ++ keyLow K = K := by
  apply BitVec.eq_of_getLsbD_eq
  intro i hi
  simp only [keyHigh, keyLow, BitVec.getLsbD_append, BitVec.getLsbD_extractLsb']
  by_cases h : i < 128
  · simp [h]
  · have h2 : i - 128 < 128 := by omega
    have h3 : 128 + (i - 128) = i := by omega
    simp [h, h2, h3]

theorem byteAt_keyLow (l : List Byte) (j : Fin 16) : byteAt (keyLow (ofBytes 256 l)) j = l.getD j 0 := by
  rw [← extract_ofBytes (w := 256) l j (by omega)]
  apply BitVec.eq_of_getLsbD_eq
  intro i hi
  have : 8 * (j : Nat) + i < 128 := by omega
  simp [byteAt, keyLow, hi, this]

theorem byteAt_keyHigh (l : List Byte) (j : Fin 16) :
    byteAt (keyHigh (ofBytes 256 l)) j = l.getD (16 + j) 0 := by
  rw [← extract_ofBytes (w := 256) l (16 + j) (by omega)]
  apply BitVec.eq_of_getLsbD_eq
  intro i hi
  have h1 : 8 * (j : Nat) + i < 128 := by omega
  have h2 : 128 + (8 * (j : Nat) + i) = 8 * (16 + j) + i := by omega
  simp [byteAt, keyHigh, hi, h1, h2]

theorem scheduleOfBytes_get (l : List Byte) (i : Fin 10) : (scheduleOfBytes l)[i] = entryOfBytes l i := by
  fin_cases i <;> rfl

theorem scheduleBytes_length (Q : Schedule) : (scheduleBytes Q).length = 160 := by
  simp [scheduleBytes, List.length_flatMap]

theorem flatMap_getD {α : Type} (n : Nat) (g : α → List Byte) (hg : ∀ a, (g a).length = n) (l : List α) (i j : Nat)
    (hi : i < l.length) (hj : j < n) : (l.flatMap g).getD (n * i + j) 0 = (g l[i]).getD j 0 := by
  induction l generalizing i with
  | nil => simp at hi
  | cons a as ih =>
    cases i with
    | zero => simp [List.getD_eq_getElem?_getD, List.getElem?_append, hg, hj]
    | succ i =>
      have h1 : n * (i + 1) + j = n + (n * i + j) := by ring
      simp only [List.flatMap_cons, List.getElem_cons_succ, h1]
      rw [← ih i (by simpa using hi)]
      simp [List.getD_eq_getElem?_getD, List.getElem?_append, hg]

theorem scheduleBytes_getD (Q : Schedule) (i : Fin 10) (j : Fin 16) :
    (scheduleBytes Q).getD (16 * i + j) 0 = byteAt Q[i] j := by
  rw [scheduleBytes, flatMap_getD 16 blockBytes blockBytes_length Q.toList i j (by simp) j.isLt, blockBytes_getD]
  simp

theorem byteAt_entryOfBytes (l : List Byte) (i : Nat) (j : Fin 16) :
    byteAt (entryOfBytes l i) j = l.getD (16 * i + j) 0 := by
  simp [entryOfBytes, List.getD_eq_getElem?_getD, List.getElem?_drop]

theorem schedule_ext {Q R : Schedule} (h : ∀ i : Fin 10, Q[i] = R[i]) : Q = R :=
  Vector.ext fun i hi => h ⟨i, hi⟩

@[simp] theorem scheduleOfBytes_scheduleBytes (Q : Schedule) : scheduleOfBytes (scheduleBytes Q) = Q := by
  apply schedule_ext
  intro i
  apply block_ext
  intro j
  rw [scheduleOfBytes_get, byteAt_entryOfBytes, scheduleBytes_getD]

theorem scheduleBytes_scheduleOfBytes (l : List Byte) (h : l.length = 160) : scheduleBytes (scheduleOfBytes l) = l := by
  apply List.ext_getElem (by simp [h, scheduleBytes_length])
  intro n h1 h2
  have hn : n < 160 := by omega
  have := scheduleBytes_getD (scheduleOfBytes l) ⟨n / 16, by omega⟩ ⟨n % 16, by omega⟩
  rw [scheduleOfBytes_get, byteAt_entryOfBytes] at this
  simpa [Nat.div_add_mod, List.getD_eq_getElem?_getD, h1, h2] using this

end Sys2Proof.Laws
end

