-- ==== Sys2Proof/Laws/Cipher.lean ====
section
/-! SUPPORT. Laws of the primitives and of the contract of the tables (40_primitives.md R110 to R116, 20_memory.md R56 to
R58). -/

namespace Sys2Proof.Laws

open Sys2Proof

/-! The primitives, byte by byte. -/

@[simp] theorem byteAt_mapBytes (f : Byte → Byte) (B : Block) (k : Fin 16) :
    byteAt (mapBytes f B) k = f (byteAt B k) := by
  rw [mapBytes, byteAt_ofBytes]
  fin_cases k <;> rfl

@[simp] theorem byteAt_SUB (T : Tables) (B : Block) (k : Fin 16) : byteAt (SUB T B) k = readS T (byteAt B k) :=
  byteAt_mapBytes _ B k

@[simp] theorem byteAt_ISUB (T : Tables) (B : Block) (k : Fin 16) : byteAt (ISUB T B) k = readSINV T (byteAt B k) :=
  byteAt_mapBytes _ B k

@[simp] theorem byteAt_X (A B : Block) (k : Fin 16) : byteAt (X A B) k = byteAt A k ^^^ byteAt B k :=
  byteAt_xor A B k

theorem X_comm (A B : Block) : X A B = X B A := BitVec.xor_comm A B
theorem X_assoc (A B C : Block) : X (X A B) C = X A (X B C) := BitVec.xor_assoc A B C
@[simp] theorem X_self (A : Block) : X A A = 0 := by simp [X]
@[simp] theorem X_zero (A : Block) : X A 0 = A := by simp [X]
@[simp] theorem zero_X (A : Block) : X 0 A = A := by simp [X]
/-- Applying `X(·, B)` twice restores the operand (R110). -/
@[simp] theorem X_X_cancel (A B : Block) : X (X A B) B = A := by rw [X_assoc, X_self, X_zero]

theorem blk_xor (a b : Halves) : blk (a.xor b) = X (blk a) (blk b) := by
  apply BitVec.eq_of_getLsbD_eq
  intro i hi
  simp only [blk, Halves.xor, X, BitVec.getLsbD_xor, BitVec.getLsbD_append]
  by_cases h : i < 64 <;> simp [h]

theorem Halves_xor_right_comm (a b c : Halves) : (a.xor b).xor c = (a.xor c).xor b := by
  simp only [Halves.xor, Halves.mk.injEq]
  exact ⟨by rw [BitVec.xor_assoc, BitVec.xor_comm b.l, ← BitVec.xor_assoc],
    by rw [BitVec.xor_assoc, BitVec.xor_comm b.r, ← BitVec.xor_assoc]⟩

/-- The accumulator loop, read as a block: the XOR of the selected entries as blocks. -/
theorem blk_foldl_xor (g : Fin 16 → Halves) (ps : List (Fin 16)) (a : Halves) :
    blk (ps.foldl (fun acc p => acc.xor (g p)) a) = ps.foldl (fun B p => X B (blk (g p))) (blk a) := by
  induction ps generalizing a with
  | nil => rfl
  | cons p ps ih => simp only [List.foldl_cons, ih, blk_xor]

/-- A block is the XOR of its bytes, each at its position. -/
theorem foldl_unitBlocks (f : Fin 16 → Byte) (k : Fin 16) :
    byteAt (positions.foldl (fun B p => X B (unitBlock p (f p))) 0) k = f k := by
  simp only [positions, List.foldl_cons, List.foldl_nil, byteAt_X, byteAt_unitBlock, byteAt_zero]
  fin_cases k <;> simp

/-! The contract. -/

/-- The contract of R56 to R58 has all that the rules use of it. -/
theorem Contract_linear {T : Tables} : T.Contract → T.LinearContract
  | ⟨_, _, _, _, c⟩ => ⟨_, _, c.toLinearContractWith⟩

section Contract

variable {T : Tables} {M MINV : Block → Block}

/-- A map that is linear over exclusive-or maps zero to zero and a XOR over positions to the XOR of the images. -/
theorem map_foldl_X (lin : ∀ A B, M (X A B) = X (M A) (M B)) (g : Fin 16 → Block) :
    M (positions.foldl (fun B p => X B (g p)) 0) = positions.foldl (fun B p => X B (M (g p))) 0 := by
  have h0 : M 0 = 0 := by
    have h := lin 0 0
    simpa using h
  have step : ∀ (ps : List (Fin 16)) (A : Block),
      M (ps.foldl (fun B p => X B (g p)) A) = ps.foldl (fun B p => X B (M (g p))) (M A) := by
    intro ps
    induction ps with
    | nil => intro A; rfl
    | cons p ps ih => intro A; rw [List.foldl_cons, List.foldl_cons, ih, lin]
  rw [step, h0]

/-- A lookup transform whose entries are `L(e(p, sub[v]))` for a linear `L` computes `L` after the substitution. -/
theorem lookupXor_eq {L : Block → Block} (lin : ∀ A B, L (X A B) = X (L A) (L B)) {entry : Fin 16 → Byte → Halves}
    {sub : Byte → Byte} (h : ∀ p v, blk (entry p v) = L (unitBlock p (sub v))) (B : Block) :
    blk (lookupXor entry B) = L (mapBytes sub B) := by
  have hz : blk ⟨0, 0⟩ = 0 := rfl
  simp only [lookupXor, blk_foldl_xor, hz, h]
  rw [← map_foldl_X lin (fun p => unitBlock p (sub (byteAt B p)))]
  congr 1
  apply block_ext
  intro k
  rw [foldl_unitBlocks (fun p => sub (byteAt B p)), byteAt_mapBytes]

/-- The inverse of a linear map is linear. -/
theorem minv_linear (c : T.LinearContractWith M MINV) (A B : Block) : MINV (X A B) = X (MINV A) (MINV B) := by
  rw [← c.minv_m (X (MINV A) (MINV B)), c.linear, c.m_minv, c.m_minv]

theorem LS_eq (c : T.LinearContractWith M MINV) (B : Block) : LS T B = M (SUB T B) :=
  lookupXor_eq c.linear c.ltf B

theorem ILS_eq (c : T.LinearContractWith M MINV) (B : Block) : ILS T B = MINV (ISUB T B) :=
  lookupXor_eq (minv_linear c) c.lti B

theorem ISUB_SUB (c : T.LinearContractWith M MINV) (B : Block) : ISUB T (SUB T B) = B :=
  block_ext fun k => by simp [c.sinv_s]

theorem SUB_ISUB (c : T.LinearContractWith M MINV) (B : Block) : SUB T (ISUB T B) = B :=
  block_ext fun k => by simp [c.s_sinv]

/-- R116, identity 2: a substitution in front leaves the bare inverse matrix. -/
theorem ILS_SUB (c : T.LinearContractWith M MINV) (B : Block) : ILS T (SUB T B) = MINV B := by
  rw [ILS_eq c, ISUB_SUB c]

/-- R116, identity 2: and the bare matrix. -/
theorem LS_ISUB (c : T.LinearContractWith M MINV) (B : Block) : LS T (ISUB T B) = M B := by
  rw [LS_eq c, SUB_ISUB c]

end Contract

end Sys2Proof.Laws
end

