-- ==== Sys2Proof/Laws/Datapath.lean ====
section
/-! SUPPORT. What each datapath operation does, once: its result is the pure function, it adds its operation count, and
it leaves alone the registers it does not name (40_primitives.md R110 to R115, 41_key_schedule.md R140 to R144,
42_block_engine.md R160, R162). -/

namespace Sys2Proof.Laws

open Sys2Proof

theorem OpCounts_add_assoc (a b c : OpCounts) : (a.add b).add c = a.add (b.add c) := by
  simp [OpCounts.add, Nat.add_assoc]

@[simp] theorem count_acc (n : OpCounts) (d : Datapath) : (d.count n).acc = d.acc := rfl
@[simp] theorem count_w (n : OpCounts) (d : Datapath) : (d.count n).w = d.w := rfl
@[simp] theorem count_ops (n : OpCounts) (d : Datapath) : (d.count n).ops = d.ops.add n := rfl

@[simp] theorem opX_fst (A B : Block) (d : Datapath) : (opX A B d).1 = X A B := rfl
@[simp] theorem opX_w (A B : Block) (d : Datapath) : (opX A B d).2.w = d.w := rfl
@[simp] theorem opX_ops (A B : Block) (d : Datapath) :
    (opX A B d).2.ops = d.ops.add ⟨0, 0, 0, 0, 0, 0, 0, 1⟩ := rfl

@[simp] theorem opSUB_fst (T : Tables) (B : Block) (d : Datapath) : (opSUB T B d).1 = SUB T B := rfl
@[simp] theorem opSUB_w (T : Tables) (B : Block) (d : Datapath) : (opSUB T B d).2.w = d.w := rfl
@[simp] theorem opSUB_ops (T : Tables) (B : Block) (d : Datapath) :
    (opSUB T B d).2.ops = d.ops.add ⟨0, 0, 0, 0, 16, 0, 0, 0⟩ := rfl

@[simp] theorem opISUB_fst (T : Tables) (B : Block) (d : Datapath) : (opISUB T B d).1 = ISUB T B := rfl
@[simp] theorem opISUB_w (T : Tables) (B : Block) (d : Datapath) : (opISUB T B d).2.w = d.w := rfl
@[simp] theorem opISUB_ops (T : Tables) (B : Block) (d : Datapath) :
    (opISUB T B d).2.ops = d.ops.add ⟨0, 0, 0, 0, 0, 16, 0, 0⟩ := rfl

/-- The LS loop: `ACC` accumulates the selected entries, two reads of `LTF` are counted a position, `W` is not touched. -/
theorem foldl_stepLS (T : Tables) (B : Block) (ps : List (Fin 16)) (d : Datapath) :
    ps.foldl (stepLS T B) d =
      ⟨ps.foldl (fun acc p => acc.xor (readLTF T p (byteAt B p))) d.acc, d.w,
        d.ops.add ⟨0, 0, 2 * ps.length, 0, 0, 0, 0, 0⟩⟩ := by
  induction ps generalizing d with
  | nil => rfl
  | cons p ps ih =>
    simp [ih, stepLS, Datapath.count, OpCounts.add]
    omega

/-- The ILS loop. -/
theorem foldl_stepILS (T : Tables) (B : Block) (ps : List (Fin 16)) (d : Datapath) :
    ps.foldl (stepILS T B) d =
      ⟨ps.foldl (fun acc p => acc.xor (readLTI T p (byteAt B p))) d.acc, d.w,
        d.ops.add ⟨0, 0, 0, 2 * ps.length, 0, 0, 0, 0⟩⟩ := by
  induction ps generalizing d with
  | nil => rfl
  | cons p ps ih =>
    simp [ih, stepILS, Datapath.count, OpCounts.add]
    omega

/-- `ACC` is cleared first, so the result does not depend on what it held (R113). -/
@[simp] theorem opLS_fst (T : Tables) (B : Block) (d : Datapath) : (opLS T B d).1 = LS T B := by
  simp only [opLS, foldl_stepLS]
  rfl

@[simp] theorem opLS_w (T : Tables) (B : Block) (d : Datapath) : (opLS T B d).2.w = d.w := by
  simp [opLS, foldl_stepLS]

@[simp] theorem opLS_ops (T : Tables) (B : Block) (d : Datapath) :
    (opLS T B d).2.ops = d.ops.add ⟨1, 0, 32, 0, 0, 0, 0, 0⟩ := by
  simp only [opLS, foldl_stepLS]
  simp [OpCounts.add, positions]

@[simp] theorem opILS_fst (T : Tables) (B : Block) (d : Datapath) : (opILS T B d).1 = ILS T B := by
  simp only [opILS, foldl_stepILS]
  rfl

@[simp] theorem opILS_w (T : Tables) (B : Block) (d : Datapath) : (opILS T B d).2.w = d.w := by
  simp [opILS, foldl_stepILS]

@[simp] theorem opILS_ops (T : Tables) (B : Block) (d : Datapath) :
    (opILS T B d).2.ops = d.ops.add ⟨0, 1, 0, 32, 0, 0, 0, 0⟩ := by
  simp only [opILS, foldl_stepILS]
  simp [OpCounts.add, positions]

/-- One Feistel round on `W[0..3]` (R141). -/
theorem opFEISTEL_w (T : Tables) (c : Fin 32) (d : Datapath) :
    (opFEISTEL T c d).w =
      ⟨X d.w.r (LS T (X d.w.l (readRC T c))), d.w.l, X d.w.l (readRC T c), LS T (X d.w.l (readRC T c))⟩ := by
  simp [opFEISTEL, opSWAP]

theorem opFEISTEL_ops (T : Tables) (c : Fin 32) (d : Datapath) :
    (opFEISTEL T c d).ops = d.ops.add ⟨1, 0, 32, 0, 0, 0, 1, 2⟩ := by
  simp [opFEISTEL, opSWAP, OpCounts.add]

/-- The registers `L` and `R` after Feistel rounds hold the pure function of the pair they held before. -/
theorem foldl_opFEISTEL (T : Tables) (f : Fin 8 → Fin 32) (ts : List (Fin 8)) (d : Datapath) (p : Block × Block)
    (h : (d.w.l, d.w.r) = p) :
    let e := ts.foldl (fun d t => opFEISTEL T (f t) d) d
    (e.w.l, e.w.r) = ts.foldl (fun p t => FEISTEL T (f t) p) p := by
  induction ts generalizing d p with
  | nil => exact h
  | cons t ts ih =>
    apply ih
    subst h
    simp [opFEISTEL_w, FEISTEL, SWAP]

theorem derive_w (T : Tables) (j : Fin 4) (d : Datapath) (p : Block × Block) (h : (d.w.l, d.w.r) = p) :
    (rounds.foldl (fun d t => opFEISTEL T (constantIndex j t) d) d).w.l = (derivePair T j p).1 ∧
    (rounds.foldl (fun d t => opFEISTEL T (constantIndex j t) d) d).w.r = (derivePair T j p).2 := by
  have := foldl_opFEISTEL T (constantIndex j) rounds d p h
  simp only [Prod.ext_iff] at this
  exact this

theorem derive_ops (T : Tables) (j : Fin 4) (d : Datapath) :
    (rounds.foldl (fun d t => opFEISTEL T (constantIndex j t) d) d).ops = d.ops.add ⟨8, 0, 256, 0, 0, 0, 8, 16⟩ := by
  simp [rounds, opFEISTEL_ops, OpCounts.add]

/-- The ten registers are the store. -/
theorem registers_eq (RK : Schedule) : registers RK = RK := by
  apply Vector.ext
  intro i hi
  have h : ∀ i : Fin 10, (registers RK)[i] = RK[i] := by
    intro i
    fin_cases i <;> rfl
  exact h ⟨i, hi⟩

/-- One derived pair (R140): from entries `2j` and `2j+1` come entries `2j+2` and `2j+3`, the rest stays. -/
theorem opDerivePair_step (T : Tables) (FK : Schedule) (d : Datapath) (j : Fin 4) :
    let p := derivePair T j (FK[2 * j.val]'(by omega), FK[2 * j.val + 1]'(by omega))
    (opDerivePair T (FK, d) j).1 = (FK.set (2 * j.val + 2) p.1 (by omega)).set (2 * j.val + 3) p.2 (by omega) ∧
    (opDerivePair T (FK, d) j).2.ops = d.ops.add ⟨8, 0, 256, 0, 0, 0, 8, 16⟩ := by
  intro p
  have hw := derive_w T j
    { d with w := { d.w with l := FK[2 * j.val]'(by omega), r := FK[2 * j.val + 1]'(by omega) } } _ rfl
  refine ⟨?_, derive_ops T j _⟩
  simp only [opDerivePair]
  rw [hw.1, hw.2]

/-- The loop of R144 over any entries. -/
theorem foldl_opTransformKey (T : Tables) (is : List (Fin 10)) (DK : Schedule) (d : Datapath) :
    (is.foldl (opTransformKey T) (DK, d)).1 =
      is.foldl (fun (DK : Schedule) (i : Fin 10) => DK.set i (ILS T (SUB T DK[i]))) DK ∧
    (is.foldl (opTransformKey T) (DK, d)).2.ops =
      d.ops.add ⟨0, is.length, 0, 32 * is.length, 16 * is.length, 0, 0, 0⟩ := by
  induction is generalizing DK d with
  | nil => exact ⟨rfl, rfl⟩
  | cons i is ih =>
    have h := ih (DK.set i (ILS T (SUB T DK[i]))) (opTransformKey T (DK, d) i).2
    have e : opTransformKey T (DK, d) i = (DK.set i (ILS T (SUB T DK[i])), (opTransformKey T (DK, d) i).2) :=
      Prod.ext (by simp [opTransformKey]) rfl
    rw [List.foldl_cons, e]
    refine ⟨h.1, h.2.trans ?_⟩
    simp [opTransformKey, OpCounts.add]
    omega

/-- The loop of R160 over any rounds. -/
theorem foldl_opEncryptRound (T : Tables) (Q : Schedule) (rs : List (Fin 10)) (B : Block) (d : Datapath) :
    (rs.foldl (opEncryptRound T Q) (B, d)).1 = rs.foldl (fun (B : Block) (r : Fin 10) => LS T (X B Q[r])) B ∧
    (rs.foldl (opEncryptRound T Q) (B, d)).2.ops =
      d.ops.add ⟨rs.length, 0, 32 * rs.length, 0, 0, 0, 0, rs.length⟩ := by
  induction rs generalizing B d with
  | nil => exact ⟨rfl, rfl⟩
  | cons r rs ih =>
    have h := ih (LS T (X B Q[r])) (opEncryptRound T Q (B, d) r).2
    have e : opEncryptRound T Q (B, d) r = (LS T (X B Q[r]), (opEncryptRound T Q (B, d) r).2) :=
      Prod.ext (by simp [opEncryptRound]) rfl
    rw [List.foldl_cons, e]
    refine ⟨h.1, h.2.trans ?_⟩
    simp [opEncryptRound, OpCounts.add]
    omega

/-- The loop of R162 step 3 over any indices. -/
theorem foldl_opDecryptRound (T : Tables) (Q : Schedule) (is : List (Fin 10)) (B : Block) (d : Datapath) :
    (is.foldl (opDecryptRound T Q) (B, d)).1 = is.foldl (fun (B : Block) (i : Fin 10) => X (ILS T B) Q[i]) B ∧
    (is.foldl (opDecryptRound T Q) (B, d)).2.ops =
      d.ops.add ⟨0, is.length, 0, 32 * is.length, 0, 0, 0, is.length⟩ := by
  induction is generalizing B d with
  | nil => exact ⟨rfl, rfl⟩
  | cons i is ih =>
    have h := ih (X (ILS T B) Q[i]) (opDecryptRound T Q (B, d) i).2
    have e : opDecryptRound T Q (B, d) i = (X (ILS T B) Q[i], (opDecryptRound T Q (B, d) i).2) :=
      Prod.ext (by simp [opDecryptRound]) rfl
    rw [List.foldl_cons, e]
    refine ⟨h.1, h.2.trans ?_⟩
    simp [opDecryptRound, OpCounts.add]
    omega

end Sys2Proof.Laws
end

