-- ==== Sys2Proof/Laws/Decode.lean ====
section
/-! SUPPORT. Laws of the opcode map, the decoder and the encoder (30_encoding.md R81 to R87). -/

namespace Sys2Proof.Laws

open Sys2Proof

/-- The opcode map is one row per command: a byte selects exactly the row that names it (R82). -/
theorem opcodeRow?_eq_some {op : Byte} {row : OpcodeRow} (h : opcodeRow? op = some row) :
    row = row.mnemonic.row ∧ row.opcode = op := by
  obtain ⟨hm, ho⟩ := And.intro (List.mem_of_find?_eq_some h) (List.find?_some h)
  refine ⟨?_, by simpa using ho⟩
  simp only [opcodeTable, List.map_cons, List.map_nil, List.mem_cons, List.not_mem_nil, or_false] at hm
  rcases hm with rfl | rfl | rfl | rfl | rfl | rfl | rfl <;> rfl

@[simp] theorem opcodeRow?_opcode (m : Mnemonic) : opcodeRow? m.row.opcode = some m.row := by
  cases m <;> rfl

/-- Which opcodes are legal: 0x01 to 0x07 (R82, R85). -/
theorem opcodeRow?_isSome (op : Byte) : (opcodeRow? op).isSome = true ↔ 0x01 ≤ op ∧ op ≤ 0x07 := by
  have h : ∀ n < 256, ((opcodeRow? (BitVec.ofNat 8 n)).isSome = true ↔
      (0x01 : Byte) ≤ BitVec.ofNat 8 n ∧ BitVec.ofNat 8 n ≤ (0x07 : Byte)) := by decide +kernel
  simpa using h op.toNat op.isLt

@[simp] theorem assembleOperand_mnemonic (payload : List Byte) (m : Mnemonic) :
    (assembleOperand payload m).mnemonic = m := by
  cases m <;> rfl

@[simp] theorem payload_length (i : Instr) : i.payload.length = i.payloadLength := by
  cases i <;> simp [Instr.payload, Instr.payloadLength, blockBytes, scheduleBytes_length]

/-- Every instruction is well formed: its operand's type has the size its format asks for (R83). -/
theorem wellFormed_all (i : Instr) : i.wellFormed = true := by
  cases i <;> rfl

theorem payloadLength_format (i : Instr) : i.payloadLength + 1 = i.mnemonic.row.format.length := by
  cases i <;> rfl

/-- A command's frame has the length of its format (R81). -/
theorem encode_length (i : Instr) : (encode i).length = i.mnemonic.row.format.length := by
  simp [encode, payloadLength_format]

/-- The operand of a payload is read back from the payload it is written as (R83). -/
theorem assembleOperand_payload (i : Instr) : assembleOperand i.payload i.mnemonic = i := by
  cases i <;> simp [assembleOperand, Instr.payload, Instr.mnemonic, ofBytes_bytesOf]

/-- A payload of the right length is the one its operand is written as (R83). -/
theorem payload_assembleOperand (payload : List Byte) (m : Mnemonic) (h : payload.length + 1 = m.row.format.length) :
    (assembleOperand payload m).payload = payload := by
  cases m <;> simp only [Mnemonic.row, Format.length] at h
  · exact bytesOf_ofBytes 32 payload (by omega) (by decide)
  · exact bytesOf_ofBytes 32 payload (by omega) (by decide)
  · exact blockBytes_ofBytes payload (by omega)
  · exact blockBytes_ofBytes payload (by omega)
  · exact scheduleBytes_scheduleOfBytes payload (by omega)
  · exact (List.length_eq_zero_iff.mp (by omega)).symm
  · exact (List.length_eq_zero_iff.mp (by omega)).symm

/-- The decoder on a frame with the opcode of a command, at the right and at a wrong length. -/
theorem decode_opcode (m : Mnemonic) (payload : List Byte) :
    decode (m.row.opcode :: payload) =
      if payload.length + 1 = m.row.format.length then .ok (assembleOperand payload m) else .error .sizeViolation := by
  simp only [decode, opcodeRow?_opcode]
  cases m <;> rfl

/-- The decoder, case by case: what a frame that decodes to a command looks like. -/
theorem decode_ok {f : Frame} {i : Instr} (h : decode f = .ok i) :
    ∃ payload, f = i.opcode :: payload ∧ payload.length + 1 = i.mnemonic.row.format.length ∧
      i = assembleOperand payload i.mnemonic := by
  cases f with
  | nil => simp [decode] at h
  | cons op payload =>
    simp only [decode] at h
    split at h
    · simp at h
    · rename_i row hrow
      obtain ⟨hr, ho⟩ := opcodeRow?_eq_some hrow
      split at h
      · rename_i hlen
        simp only [Except.ok.injEq] at h
        subst h
        refine ⟨payload, ?_, ?_, by simp⟩
        · simp [Instr.opcode, ← hr, ho]
        · simpa [← hr] using hlen
      · simp at h

end Sys2Proof.Laws
end

