-- ==== Sys2Proof/Laws/DefaultTables.lean ====
section
/-! SUPPORT. The default `TABLES` meet the contract (20_memory.md R56 to R58, R62 to R68): the arithmetic of GF(2^8), the
two matrices as inverse linear maps, and the two substitution tables as inverse permutations. -/

namespace Sys2Proof.Laws

open Sys2Proof

/-! Multiplication in GF(2^8) (R64). -/

theorem gdouble_lt {b : Nat} (h : b < 256) : gdouble b < 256 := by
  have : ∀ b < 256, gdouble b < 256 := by decide +kernel
  exact this b h

theorem bit_mul_xor {x y : Nat} (hx : x < 2) (hy : y < 2) (n : Nat) : (x ^^^ y) * n = x * n ^^^ y * n := by
  interval_cases x <;> interval_cases y <;> simp

theorem xor_mul_two (a b : Nat) : (a ^^^ b) * 2 = a * 2 ^^^ b * 2 := by
  have h := Nat.shiftLeft_xor_distrib (a := a) (b := b) (i := 1)
  simpa [Nat.shiftLeft_eq] using h

theorem xor_div_pow (a b k : Nat) : (a ^^^ b) / 2 ^ k = a / 2 ^ k ^^^ b / 2 ^ k := by
  have h := Nat.shiftRight_xor_distrib (a := a) (b := b) (i := k)
  simpa [Nat.shiftRight_eq_div_pow] using h

theorem xor_xor_xor_comm' (a b c d : Nat) : (a ^^^ b) ^^^ (c ^^^ d) = (a ^^^ c) ^^^ (b ^^^ d) := by
  rw [Nat.xor_assoc, Nat.xor_assoc, ← Nat.xor_assoc b, ← Nat.xor_assoc c, Nat.xor_comm b c]

theorem gdouble_xor {a b : Nat} (ha : a < 256) (hb : b < 256) : gdouble (a ^^^ b) = gdouble a ^^^ gdouble b := by
  have h := xor_div_pow a b 7
  norm_num at h
  rw [gdouble, gdouble, gdouble, xor_mul_two, h, bit_mul_xor (by omega) (by omega), xor_xor_xor_comm']

theorem gmulNat_lt (n a : Nat) {b : Nat} (hb : b < 256) : gmulNat n a b < 256 := by
  induction n generalizing a b with
  | zero => simp [gmulNat]
  | succ n ih =>
    have h1 : a % 2 * b < 256 := by
      rcases Nat.mod_two_eq_zero_or_one a with h | h <;> simp [h, hb]
    exact Nat.xor_lt_two_pow (n := 8) h1 (ih (a / 2) (gdouble_lt hb))

theorem gmulNat_xor_right (n a : Nat) {b c : Nat} (hb : b < 256) (hc : c < 256) :
    gmulNat n a (b ^^^ c) = gmulNat n a b ^^^ gmulNat n a c := by
  induction n generalizing a b c with
  | zero => simp [gmulNat]
  | succ n ih =>
    have h1 : a % 2 * (b ^^^ c) = a % 2 * b ^^^ a % 2 * c := by
      rcases Nat.mod_two_eq_zero_or_one a with h | h <;> simp [h]
    rw [gmulNat, gmulNat, gmulNat, h1, gdouble_xor hb hc, ih _ (gdouble_lt hb) (gdouble_lt hc), xor_xor_xor_comm']

theorem gmulNat_xor_left (n a a' b : Nat) : gmulNat n (a ^^^ a') b = gmulNat n a b ^^^ gmulNat n a' b := by
  induction n generalizing a a' b with
  | zero => simp [gmulNat]
  | succ n ih =>
    have h1 : (a ^^^ a') % 2 = a % 2 ^^^ a' % 2 := Nat.xor_mod_two_pow (n := 1)
    have h2 : (a ^^^ a') / 2 = a / 2 ^^^ a' / 2 := by simpa using xor_div_pow a a' 1
    rw [gmulNat, gmulNat, gmulNat, h1, h2, bit_mul_xor (Nat.mod_lt _ (by decide)) (Nat.mod_lt _ (by decide)), ih,
      xor_xor_xor_comm']

theorem ofNat_xor (x y : Nat) : (BitVec.ofNat 8 (x ^^^ y) : Byte) = BitVec.ofNat 8 x ^^^ BitVec.ofNat 8 y := by
  apply BitVec.eq_of_getLsbD_eq
  intro i hi
  simp [hi]

theorem gmul_xor_right (a b c : Byte) : gmul a (b ^^^ c) = gmul a b ^^^ gmul a c := by
  rw [gmul, gmul, gmul, BitVec.toNat_xor, gmulNat_xor_right 8 _ b.isLt c.isLt, ofNat_xor]

theorem gmul_xor_left (a b c : Byte) : gmul (a ^^^ b) c = gmul a c ^^^ gmul b c := by
  rw [gmul, gmul, gmul, BitVec.toNat_xor, gmulNat_xor_left, ofNat_xor]

/-- The eight bytes with one bit set. -/
def byteBasis : List Byte := (List.range 8).map (BitVec.twoPow 8)

theorem byte_eq_basis (b : Byte) : b = byteBasis.foldl (fun a m => a ^^^ (b &&& m)) 0 := by
  apply BitVec.eq_of_getLsbD_eq
  intro i hi
  interval_cases i <;> simp [byteBasis, List.range_succ, BitVec.getElem_twoPow]

theorem and_basis (b m : Byte) (hm : m ∈ byteBasis) : b &&& m = 0 ∨ b &&& m = m := by
  obtain ⟨i, -, rfl⟩ := List.mem_map.mp hm
  rw [BitVec.and_twoPow]
  split
  · exact .inr rfl
  · exact .inl rfl

/-- Two maps of bytes that are linear over exclusive-or and agree on the eight basis bytes are equal. -/
theorem byte_linear_ext {f g : Byte → Byte} (hf : ∀ a b, f (a ^^^ b) = f a ^^^ f b)
    (hg : ∀ a b, g (a ^^^ b) = g a ^^^ g b) (h : ∀ m ∈ byteBasis, f m = g m) (b : Byte) : f b = g b := by
  have zero : ∀ {k : Byte → Byte}, (∀ a b, k (a ^^^ b) = k a ^^^ k b) → k 0 = 0 := by
    intro k hk
    have := hk 0 0
    simpa using this
  have step : ∀ (ms : List Byte), (∀ m ∈ ms, m ∈ byteBasis) → ∀ a : Byte, f a = g a →
      f (ms.foldl (fun a m => a ^^^ (b &&& m)) a) = g (ms.foldl (fun a m => a ^^^ (b &&& m)) a) := by
    intro ms
    induction ms with
    | nil => intro _ a ha; exact ha
    | cons m ms ih =>
      intro hms a ha
      apply ih (fun m' hm' => hms m' (List.mem_cons_of_mem _ hm'))
      rw [hf, hg, ha]
      rcases and_basis b m (hms m List.mem_cons_self) with hz | he
      · rw [hz, zero hf, zero hg]
      · rw [he, h m (hms m List.mem_cons_self)]
  rw [byte_eq_basis b]
  exact step byteBasis (fun m hm => hm) 0 (by rw [zero hf, zero hg])

/-- Multiplication in GF(2^8) is associative; by linearity in each factor it is enough to look at the basis. -/
theorem gmul_assoc (a b c : Byte) : gmul a (gmul b c) = gmul (gmul a b) c := by
  have basis : ∀ a ∈ byteBasis, ∀ b ∈ byteBasis, ∀ c ∈ byteBasis, gmul a (gmul b c) = gmul (gmul a b) c := by
    decide +kernel
  refine byte_linear_ext (f := fun a => gmul a (gmul b c)) (g := fun a => gmul (gmul a b) c) ?_ ?_ ?_ a
  · intro x y; exact gmul_xor_left x y _
  · intro x y; simp only [gmul_xor_left]
  · intro a ha
    refine byte_linear_ext (f := fun b => gmul a (gmul b c)) (g := fun b => gmul (gmul a b) c) ?_ ?_ ?_ b
    · intro x y; simp only [gmul_xor_left, gmul_xor_right]
    · intro x y; simp only [gmul_xor_left, gmul_xor_right]
    · intro b hb
      refine byte_linear_ext (f := fun c => gmul a (gmul b c)) (g := fun c => gmul (gmul a b) c) ?_ ?_ ?_ c
      · intro x y; simp only [gmul_xor_right]
      · intro x y; simp only [gmul_xor_right]
      · intro c hc; exact basis a ha b hb c hc

theorem gmul_one (x : Byte) : gmul 1 x = x := by
  have h : ∀ n < 256, gmul 1 (BitVec.ofNat 8 n) = BitVec.ofNat 8 n := by decide +kernel
  simpa using h x.toNat x.isLt

theorem gmul_zero_left (x : Byte) : gmul 0 x = 0 := by
  have h := gmul_xor_left 0 0 x
  simpa using h

theorem gmul_zero_right (a : Byte) : gmul a 0 = 0 := by
  have h := gmul_xor_right a 0 0
  simpa using h

/-- Multiplication in GF(2^8) is commutative. -/
theorem gmul_comm (a b : Byte) : gmul a b = gmul b a := by
  have basis : ∀ a ∈ byteBasis, ∀ b ∈ byteBasis, gmul a b = gmul b a := by decide +kernel
  refine byte_linear_ext (f := fun a => gmul a b) (g := fun a => gmul b a) ?_ ?_ ?_ a
  · intro x y; exact gmul_xor_left x y b
  · intro x y; exact gmul_xor_right b x y
  · intro a ha
    refine byte_linear_ext (f := fun b => gmul a b) (g := fun b => gmul b a) ?_ ?_ (basis a ha) b
    · intro x y; exact gmul_xor_right a x y
    · intro x y; exact gmul_xor_left x y a

/-- The square of the square ..., `a^(2^n)`. -/
def squares : Nat → Byte → Byte
  | 0, a => a
  | n + 1, a => squares n (gmul a a)

/-- `a^254`, the inverse of a nonzero `a` in a field of 256 elements: 254 = 2 + 4 + 8 + 16 + 32 + 64 + 128. -/
def powerInverse (a : Byte) : Byte := [1, 2, 3, 4, 5, 6, 7].foldl (fun b n => gmul b (squares n a)) 1

theorem gmul_powerInverse (a : Byte) (h : a ≠ 0) : gmul (powerInverse a) a = 1 := by
  have key : ∀ n < 256, BitVec.ofNat 8 n ≠ (0 : Byte) →
      gmul (powerInverse (BitVec.ofNat 8 n)) (BitVec.ofNat 8 n) = 1 := by decide +kernel
  have := key a.toNat a.isLt
  simp only [BitVec.ofNat_toNat, BitVec.setWidth_eq] at this
  exact this h

/-- The field of R64 is a field. -/
theorem gmul_field : FieldProduct gmul 1 where
  assoc := gmul_assoc
  comm := gmul_comm
  distrib := gmul_xor_right
  one_mul := gmul_one
  one_ne_zero := by decide
  inverse a h := ⟨powerInverse a, gmul_powerInverse a h⟩

/-! Matrices over the field as linear maps of blocks (R65, R66). -/

@[simp] theorem byteAt_matrixOver (mul : Byte → Byte → Byte) (A : Fin 16 → Fin 16 → Byte) (B : Block) (i : Fin 16) :
    byteAt (matrixOver mul A B) i = fieldSum fun p => mul (A i p) (byteAt B p) := by
  rw [matrixOver, byteAt_ofBytes]
  fin_cases i <;> rfl

@[simp] theorem byteAt_matrixTimes (A : Fin 16 → Fin 16 → Byte) (B : Block) (i : Fin 16) :
    byteAt (matrixTimes A B) i = fieldSum fun p => gmul (A i p) (byteAt B p) :=
  byteAt_matrixOver gmul A B i

theorem byte_xor_comm4 (a b c d : Byte) : (a ^^^ b) ^^^ (c ^^^ d) = (a ^^^ c) ^^^ (b ^^^ d) := by
  rw [BitVec.xor_assoc, BitVec.xor_assoc, ← BitVec.xor_assoc b, ← BitVec.xor_assoc c, BitVec.xor_comm b c]

theorem fieldSum_xor (f g : Fin 16 → Byte) : fieldSum (fun p => f p ^^^ g p) = fieldSum f ^^^ fieldSum g := by
  have step : ∀ (ps : List (Fin 16)) (a b : Byte),
      ps.foldl (fun a p => a ^^^ (f p ^^^ g p)) (a ^^^ b) =
        ps.foldl (fun a p => a ^^^ f p) a ^^^ ps.foldl (fun a p => a ^^^ g p) b := by
    intro ps
    induction ps with
    | nil => intro a b; rfl
    | cons p ps ih => intro a b; rw [List.foldl_cons, List.foldl_cons, List.foldl_cons, byte_xor_comm4, ih]
  simpa [fieldSum] using step positions 0 0

theorem fieldSum_map {k : Byte → Byte} (hk : ∀ a b, k (a ^^^ b) = k a ^^^ k b) (f : Fin 16 → Byte) :
    fieldSum (fun p => k (f p)) = k (fieldSum f) := by
  have h0 : k 0 = 0 := by
    have := hk 0 0
    simpa using this
  have step : ∀ (ps : List (Fin 16)) (a : Byte),
      ps.foldl (fun a p => a ^^^ k (f p)) (k a) = k (ps.foldl (fun a p => a ^^^ f p) a) := by
    intro ps
    induction ps with
    | nil => intro a; rfl
    | cons p ps ih => intro a; rw [List.foldl_cons, List.foldl_cons, ← hk, ih]
  have h := step positions 0
  rw [h0] at h
  exact h

theorem fieldSum_single (q : Fin 16) (f : Fin 16 → Byte) : fieldSum (fun p => if p = q then f p else 0) = f q := by
  fin_cases q <;> simp [fieldSum, positions]

/-- A matrix over a field is linear over exclusive-or (R57). -/
theorem matrixOver_linear {mul : Byte → Byte → Byte} (h : ∀ a b c, mul a (b ^^^ c) = mul a b ^^^ mul a c)
    (A : Fin 16 → Fin 16 → Byte) (B C : Block) :
    matrixOver mul A (X B C) = X (matrixOver mul A B) (matrixOver mul A C) := by
  apply block_ext
  intro i
  simp only [byteAt_matrixOver, byteAt_X, h, fieldSum_xor]

theorem matrixTimes_linear (A : Fin 16 → Fin 16 → Byte) (B C : Block) :
    matrixTimes A (X B C) = X (matrixTimes A B) (matrixTimes A C) := matrixOver_linear gmul_xor_right A B C

/-- A matrix applied to `e(p, x)` is its column `p` times `x`. -/
theorem byteAt_matrixTimes_unit (A : Fin 16 → Fin 16 → Byte) (p i : Fin 16) (x : Byte) :
    byteAt (matrixTimes A (unitBlock p x)) i = gmul (A i p) x := by
  rw [byteAt_matrixTimes]
  have h : (fun q => gmul (A i q) (byteAt (unitBlock p x) q)) = fun q => if q = p then gmul (A i q) x else 0 := by
    funext q
    rw [byteAt_unitBlock]
    split
    · rfl
    · exact gmul_zero_right _
  rw [h, fieldSum_single p (fun q => gmul (A i q) x)]

/-- Two linear maps of blocks that agree on every `e(p, v)` are equal. -/
theorem block_linear_ext {f g : Block → Block} (hf : ∀ A B, f (X A B) = X (f A) (f B))
    (hg : ∀ A B, g (X A B) = X (g A) (g B)) (h : ∀ p v, f (unitBlock p v) = g (unitBlock p v)) (B : Block) :
    f B = g B := by
  have hB : positions.foldl (fun C p => X C (unitBlock p (byteAt B p))) 0 = B :=
    block_ext fun k => foldl_unitBlocks (fun p => byteAt B p) k
  rw [← hB, map_foldl_X hf, map_foldl_X hg]
  simp only [h]

/-- The product of two matrices over the field. -/
def matrixMul (A C : Fin 16 → Fin 16 → Byte) (i q : Fin 16) : Byte := fieldSum fun p => gmul (A i p) (C p q)

/-- Matrices whose product is the identity are inverse maps. -/
theorem matrixTimes_inverse {A C : Fin 16 → Fin 16 → Byte} (h : ∀ i q, matrixMul A C i q = if i = q then 1 else 0)
    (B : Block) : matrixTimes A (matrixTimes C B) = B := by
  refine block_linear_ext (f := fun B => matrixTimes A (matrixTimes C B)) (g := fun B => B) ?_ ?_ ?_ B
  · intro B D; simp only [matrixTimes_linear]
  · intro B D; rfl
  · intro q v
    apply block_ext
    intro i
    have e : (fun p => gmul (A i p) (byteAt (matrixTimes C (unitBlock q v)) p)) =
        fun p => gmul (gmul (A i p) (C p q)) v := by
      funext p
      rw [byteAt_matrixTimes_unit, gmul_assoc]
    rw [byteAt_matrixTimes, e, fieldSum_map (k := fun a => gmul a v) (fun a b => gmul_xor_left a b v)]
    change gmul (matrixMul A C i q) v = byteAt (unitBlock q v) i
    rw [h, byteAt_unitBlock]
    split
    · exact gmul_one v
    · exact gmul_zero_left v

/-! The listings (R62 to R66). -/

theorem MM_mul_MMI : ∀ i q, matrixMul MM MMI i q = if i = q then 1 else 0 := by decide +kernel

theorem MMI_mul_MM : ∀ i q, matrixMul MMI MM i q = if i = q then 1 else 0 := by decide +kernel

theorem defaultSINV_defaultS (x : Byte) : readSINV defaultTables (readS defaultTables x) = x := by
  have h : ∀ n < 256, readSINV defaultTables (readS defaultTables (BitVec.ofNat 8 n)) = BitVec.ofNat 8 n := by
    decide +kernel
  simpa using h x.toNat x.isLt

theorem defaultS_defaultSINV (x : Byte) : readS defaultTables (readSINV defaultTables x) = x :=
  let left : Function.LeftInverse (readSINV defaultTables) (readS defaultTables) := defaultSINV_defaultS
  let surj : Function.Surjective (readS defaultTables) := Finite.surjective_of_injective left.injective
  let ⟨y, hy⟩ := surj x
  by rw [← hy, left y]

theorem linearTable_row (A : Fin 16 → Fin 16 → Byte) (sub : Vector Byte 256) (p : Fin 16) :
    (linearTable A sub)[p] = linearRow A sub p := by
  fin_cases p <;> rfl

theorem linearTable_get (A : Fin 16 → Fin 16 → Byte) (sub : Vector Byte 256) (p : Fin 16) (v : Byte) :
    ((linearTable A sub)[p])[v.toNat]'(v.isLt) = columnTimes A p (sub[v.toNat]'(v.isLt)) := by
  rw [linearTable_row]
  simp [linearRow]

theorem blk_columnTimes (A : Fin 16 → Fin 16 → Byte) (p : Fin 16) (x : Byte) :
    blk (columnTimes A p x) = matrixTimes A (unitBlock p x) := by
  apply block_ext
  intro i
  rw [byteAt_matrixTimes_unit]
  apply BitVec.eq_of_getLsbD_eq
  intro b hb
  rw [byteAt_getLsbD]
  simp only [blk, columnTimes, BitVec.getLsbD_append, ofBytes_getLsbD, hb, decide_true, Bool.true_and]
  fin_cases i <;> interval_cases b <;> rfl

/-- The default tables meet the contract, with the standard's matrices for `M` and `MINV`. -/
theorem defaultTables_linearContractWith : defaultTables.LinearContractWith (matrixTimes MM) (matrixTimes MMI) where
  sinv_s := defaultSINV_defaultS
  s_sinv := defaultS_defaultSINV
  linear := matrixTimes_linear MM
  minv_m := matrixTimes_inverse MMI_mul_MM
  m_minv := matrixTimes_inverse MM_mul_MMI
  ltf p v := by rw [readLTF, defaultTables]; exact (congrArg blk (linearTable_get _ _ p v)).trans (blk_columnTimes _ p _)
  lti p v := by rw [readLTI, defaultTables]; exact (congrArg blk (linearTable_get _ _ p v)).trans (blk_columnTimes _ p _)

theorem defaultTables_contractWith : defaultTables.ContractWith gmul 1 MM (matrixTimes MMI) :=
  ⟨defaultTables_linearContractWith, gmul_field⟩

theorem defaultTables_contract : defaultTables.Contract := ⟨_, _, _, _, defaultTables_contractWith⟩

theorem defaultTables_linearContract : defaultTables.LinearContract := ⟨_, _, defaultTables_linearContractWith⟩

end Sys2Proof.Laws
end

