-- ==== Sys2Proof/Laws/Flags.lean ====
section
/-! SUPPORT. Laws of the status byte's fields (10_state.md R24). -/

namespace Sys2Proof.Laws

open Sys2Proof

/-- A property of bytes that holds of the 256 numerals holds of every byte. -/
theorem byte_forall {p : Byte → Prop} (h : ∀ n < 256, p (BitVec.ofNat 8 n)) (b : Byte) : p b := by
  simpa using h b.toNat b.isLt

theorem setKst_fields (k : ScheduleKind) (st : Status) :
    kstOf (setKst k st) = k ∧ faultOf (setKst k st) = faultOf st ∧ fcauseOf (setKst k st) = fcauseOf st ∧
      reservedOf (setKst k st) = reservedOf st := by
  revert st
  apply byte_forall
  cases k <;> decide +kernel

theorem setFault_fields (c : FaultCause) (st : Status) :
    faultOf (setFault c st) = true ∧ fcauseOf (setFault c st) = c.code.setWidth 2 ∧
      kstOf (setFault c st) = kstOf st ∧ reservedOf (setFault c st) = reservedOf st := by
  revert st
  apply byte_forall
  cases c <;> decide +kernel

@[simp] theorem kstOf_setKst (k : ScheduleKind) (st : Status) : kstOf (setKst k st) = k := (setKst_fields k st).1
@[simp] theorem faultOf_setKst (k : ScheduleKind) (st : Status) : faultOf (setKst k st) = faultOf st :=
  (setKst_fields k st).2.1
@[simp] theorem fcauseOf_setKst (k : ScheduleKind) (st : Status) : fcauseOf (setKst k st) = fcauseOf st :=
  (setKst_fields k st).2.2.1
@[simp] theorem reservedOf_setKst (k : ScheduleKind) (st : Status) : reservedOf (setKst k st) = reservedOf st :=
  (setKst_fields k st).2.2.2
@[simp] theorem faultOf_setFault (c : FaultCause) (st : Status) : faultOf (setFault c st) = true :=
  (setFault_fields c st).1
@[simp] theorem fcauseOf_setFault (c : FaultCause) (st : Status) :
    fcauseOf (setFault c st) = c.code.setWidth 2 := (setFault_fields c st).2.1
@[simp] theorem kstOf_setFault (c : FaultCause) (st : Status) : kstOf (setFault c st) = kstOf st :=
  (setFault_fields c st).2.2.1
@[simp] theorem reservedOf_setFault (c : FaultCause) (st : Status) : reservedOf (setFault c st) = reservedOf st :=
  (setFault_fields c st).2.2.2

@[simp] theorem kstOf_zero : kstOf 0 = .EMPTY := rfl
@[simp] theorem faultOf_zero : faultOf 0 = false := rfl
@[simp] theorem fcauseOf_zero : fcauseOf 0 = 0 := rfl
@[simp] theorem reservedOf_zero : reservedOf 0 = 0 := rfl

end Sys2Proof.Laws
end

