-- ==== Sys2Proof/Laws/State.lean ====
section
/-! SUPPORT. What each named update of the state does to each field: one lemma per field per update, true by rfl. -/

namespace Sys2Proof.Machine

variable (s : State)

/-! `emit` -/

@[simp] theorem emit_tables (r : Frame) : (emit r s).tables = s.tables := rfl
@[simp] theorem emit_blk (r : Frame) : (emit r s).blk = s.blk := rfl
@[simp] theorem emit_acc (r : Frame) : (emit r s).acc = s.acc := rfl
@[simp] theorem emit_rk (r : Frame) : (emit r s).rk = s.rk := rfl
@[simp] theorem emit_st (r : Frame) : (emit r s).st = s.st := rfl
@[simp] theorem emit_w (r : Frame) : (emit r s).w = s.w := rfl
@[simp] theorem emit_input (r : Frame) : (emit r s).input = s.input := rfl
@[simp] theorem emit_output (r : Frame) : (emit r s).output = s.output ++ [r] := rfl
@[simp] theorem emit_freeCount (r : Frame) : (emit r s).freeCount = s.freeCount := rfl

/-! `raiseFault` -/

@[simp] theorem raiseFault_tables (c : FaultCause) : (raiseFault c s).tables = s.tables := rfl
@[simp] theorem raiseFault_blk (c : FaultCause) : (raiseFault c s).blk = s.blk := rfl
@[simp] theorem raiseFault_acc (c : FaultCause) : (raiseFault c s).acc = s.acc := rfl
@[simp] theorem raiseFault_rk (c : FaultCause) : (raiseFault c s).rk = s.rk := rfl
@[simp] theorem raiseFault_st (c : FaultCause) : (raiseFault c s).st = setFault c s.st := rfl
@[simp] theorem raiseFault_w (c : FaultCause) : (raiseFault c s).w = s.w := rfl
@[simp] theorem raiseFault_input (c : FaultCause) : (raiseFault c s).input = s.input := rfl
@[simp] theorem raiseFault_output (c : FaultCause) : (raiseFault c s).output = s.output := rfl
@[simp] theorem raiseFault_freeCount (c : FaultCause) : (raiseFault c s).freeCount = s.freeCount := rfl

/-! `writeStore` -/

@[simp] theorem writeStore_tables (Q : Schedule) (k : ScheduleKind) : (writeStore Q k s).tables = s.tables := rfl
@[simp] theorem writeStore_blk (Q : Schedule) (k : ScheduleKind) : (writeStore Q k s).blk = s.blk := rfl
@[simp] theorem writeStore_acc (Q : Schedule) (k : ScheduleKind) : (writeStore Q k s).acc = s.acc := rfl
@[simp] theorem writeStore_rk (Q : Schedule) (k : ScheduleKind) : (writeStore Q k s).rk = Q := rfl
@[simp] theorem writeStore_st (Q : Schedule) (k : ScheduleKind) : (writeStore Q k s).st = setKst k s.st := rfl
@[simp] theorem writeStore_w (Q : Schedule) (k : ScheduleKind) : (writeStore Q k s).w = s.w := rfl
@[simp] theorem writeStore_input (Q : Schedule) (k : ScheduleKind) : (writeStore Q k s).input = s.input := rfl
@[simp] theorem writeStore_output (Q : Schedule) (k : ScheduleKind) : (writeStore Q k s).output = s.output := rfl
@[simp] theorem writeStore_freeCount (Q : Schedule) (k : ScheduleKind) : (writeStore Q k s).freeCount = s.freeCount := rfl

/-! `retireEngine` -/

@[simp] theorem retireEngine_tables : (retireEngine s).tables = s.tables := rfl
@[simp] theorem retireEngine_blk : (retireEngine s).blk = s.blk := rfl
@[simp] theorem retireEngine_acc : (retireEngine s).acc = Config.freeAcc s.freeCount := rfl
@[simp] theorem retireEngine_rk : (retireEngine s).rk = s.rk := rfl
@[simp] theorem retireEngine_st : (retireEngine s).st = s.st := rfl
@[simp] theorem retireEngine_w : (retireEngine s).w = s.w := rfl
@[simp] theorem retireEngine_input : (retireEngine s).input = s.input := rfl
@[simp] theorem retireEngine_output : (retireEngine s).output = s.output := rfl
@[simp] theorem retireEngine_freeCount : (retireEngine s).freeCount = s.freeCount + 1 := rfl

/-! `retireScheduler` -/

@[simp] theorem retireScheduler_tables : (retireScheduler s).tables = s.tables := rfl
@[simp] theorem retireScheduler_blk : (retireScheduler s).blk = s.blk := rfl
@[simp] theorem retireScheduler_acc : (retireScheduler s).acc = Config.freeAcc s.freeCount := rfl
@[simp] theorem retireScheduler_rk : (retireScheduler s).rk = s.rk := rfl
@[simp] theorem retireScheduler_st : (retireScheduler s).st = s.st := rfl
@[simp] theorem retireScheduler_w : (retireScheduler s).w = Config.freeScratch s.freeCount := rfl
@[simp] theorem retireScheduler_input : (retireScheduler s).input = s.input := rfl
@[simp] theorem retireScheduler_output : (retireScheduler s).output = s.output := rfl
@[simp] theorem retireScheduler_freeCount : (retireScheduler s).freeCount = s.freeCount + 1 := rfl

/-! `hostReset` -/

@[simp] theorem hostReset_tables : (hostReset s).tables = s.tables := rfl
@[simp] theorem hostReset_blk : (hostReset s).blk = Config.freeBlk s.freeCount := rfl
@[simp] theorem hostReset_acc : (hostReset s).acc = Config.freeAcc s.freeCount := rfl
@[simp] theorem hostReset_rk : (hostReset s).rk = Config.freeSchedule s.freeCount := rfl
@[simp] theorem hostReset_st : (hostReset s).st = 0x00 := rfl
@[simp] theorem hostReset_w : (hostReset s).w = Config.freeScratch s.freeCount := rfl
@[simp] theorem hostReset_input : (hostReset s).input = s.input := rfl
@[simp] theorem hostReset_output : (hostReset s).output = s.output := rfl
@[simp] theorem hostReset_freeCount : (hostReset s).freeCount = s.freeCount + 1 := rfl

/-! `State.reset` -/

@[simp] theorem reset_st : State.reset.st = 0x00 := rfl
@[simp] theorem reset_input : State.reset.input = [] := rfl
@[simp] theorem reset_output : State.reset.output = [] := rfl
@[simp] theorem reset_tables : State.reset.tables = defaultTables := rfl

end Sys2Proof.Machine
end

