-- ==== Sys2Proof/Laws/Ops.lean ====
section
/-! SUPPORT. What each shared operation answers, case by case (30_encoding.md R80, R86; 60_exceptions.md R203, R207,
R209). -/

namespace Sys2Proof.Laws

open Sys2Proof Sys2Proof.Machine

theorem fetch_nil {s : State} (h : s.input = []) : fetch s = none := by
  simp [fetch, h]

theorem fetch_cons {s : State} {f : Frame} {rest : List Frame} (h : s.input = f :: rest) :
    fetch s = some (f, { s with input := rest }) := by
  simp [fetch, h]

theorem step_nil {s : State} (h : s.input = []) : step s = .next s := by
  simp [step, fetch_nil h]

/-- A step on a frame the decoder rejects. -/
theorem step_error {s : State} {f : Frame} {rest : List Frame} {c : FaultCause} (h : s.input = f :: rest)
    (hd : decode f = .error c) : step s = .next (reject c { s with input := rest }) := by
  simp [step, fetch_cons h, hd]

@[simp] theorem reject_faulted {s : State} (c : FaultCause) (h : faultOf s.st = true) : reject c s = s := by
  simp [reject, h]

@[simp] theorem reject_ok {s : State} (c : FaultCause) (h : faultOf s.st = false) : reject c s = raiseFault c s := by
  simp [reject, h]

@[simp] theorem command_faulted {s : State} (run : State → State) (h : faultOf s.st = true) : command s run = s := by
  simp [command, h]

@[simp] theorem command_ok {s : State} (run : State → State) (h : faultOf s.st = false) : command s run = run s := by
  simp [command, h]

@[simp] theorem storeCommand_faulted {s : State} (run : State → State) (h : faultOf s.st = true) :
    storeCommand s run = s := by
  simp [storeCommand, h]

@[simp] theorem storeCommand_empty {s : State} (run : State → State) (h : faultOf s.st = false)
    (hk : kstOf s.st = .EMPTY) : storeCommand s run = raiseFault .noSchedule s := by
  simp [storeCommand, h, hk]

@[simp] theorem storeCommand_ok {s : State} (run : State → State) (h : faultOf s.st = false)
    (hk : kstOf s.st ≠ .EMPTY) : storeCommand s run = run s := by
  simp [storeCommand, h, hk]

/-- What `command` can answer. -/
theorem command_cases (s : State) (run : State → State) :
    (faultOf s.st = true ∧ command s run = s) ∨ (faultOf s.st = false ∧ command s run = run s) := by
  cases h : faultOf s.st
  · exact .inr ⟨rfl, command_ok run h⟩
  · exact .inl ⟨rfl, command_faulted run h⟩

/-- What `storeCommand` can answer. -/
theorem storeCommand_cases (s : State) (run : State → State) :
    (faultOf s.st = true ∧ storeCommand s run = s) ∨
    (faultOf s.st = false ∧ kstOf s.st = .EMPTY ∧ storeCommand s run = raiseFault .noSchedule s) ∨
    (faultOf s.st = false ∧ kstOf s.st ≠ .EMPTY ∧ storeCommand s run = run s) := by
  cases h : faultOf s.st
  · by_cases hk : kstOf s.st = .EMPTY
    · exact .inr (.inl ⟨rfl, hk, storeCommand_empty run h hk⟩)
    · exact .inr (.inr ⟨rfl, hk, storeCommand_ok run h hk⟩)
  · exact .inl ⟨rfl, storeCommand_faulted run h⟩

/-- A block command, field by field: the transform's result in `BLK` and as the response, `ACC` free. -/
theorem blockCommand_eq (transform : Tables → Schedule → Block → Datapath → Block × Datapath) (block : Block)
    (s : State) :
    blockCommand transform block s = { s with
      blk := (transform s.tables s.rk block (datapathOf s)).1
      output := s.output ++ [blockBytes (transform s.tables s.rk block (datapathOf s)).1]
      acc := Config.freeAcc s.freeCount
      freeCount := s.freeCount + 1 } := rfl

end Sys2Proof.Laws
end

