-- ==== Sys2Proof/Laws/PerInstr.lean ====
section
/-! SUPPORT. The family `FrameShape`: the frame of every command is its opcode byte and a payload, well formed, and as
long as the table of R81 and R82 says. -/

namespace Sys2Proof.Laws.FrameShape

open Sys2Proof

/-- The frame of `i` is `op` and then a payload of the length its row gives (30_encoding.md R81, R82). -/
def Shape (i : Instr) (op : Byte) (n : Nat) : Prop :=
  ∃ payload, encode i = op :: payload ∧ payload.length + 1 = n ∧ Frame.wellFormed (encode i) = true

/-- The row of R81 and R82 for each command. -/
def Statement (i : Instr) : Prop :=
  match i with
  | .schf _ => Shape i 0x01 33
  | .schr _ => Shape i 0x02 33
  | .enc _ => Shape i 0x03 17
  | .dec _ => Shape i 0x04 17
  | .wrrk _ => Shape i 0x05 161
  | .rdrk => Shape i 0x06 1
  | .rdst => Shape i 0x07 1

theorem wellFormed_encode (i : Instr) : Frame.wellFormed (encode i) = true := by
  simp [encode, Frame.wellFormed, Instr.opcode, payloadLength_format]

theorem shape (i : Instr) : Shape i i.opcode i.mnemonic.row.format.length :=
  ⟨i.payload, rfl, by rw [payload_length, payloadLength_format], wellFormed_encode i⟩

theorem schf (key : MasterKey) : Statement (.schf key) := shape (.schf key)
theorem schr (key : MasterKey) : Statement (.schr key) := shape (.schr key)
theorem enc (block : Block) : Statement (.enc block) := shape (.enc block)
theorem dec (block : Block) : Statement (.dec block) := shape (.dec block)
theorem wrrk (schedule : Schedule) : Statement (.wrrk schedule) := shape (.wrrk schedule)
theorem rdrk : Statement .rdrk := shape .rdrk
theorem rdst : Statement .rdst := shape .rdst

end Sys2Proof.Laws.FrameShape
end

