-- ==== Sys2Proof/Tests/Slice0.lean ====
section
/-! SUPPORT. Tests of single steps against the spec's own numbers (95_test_vectors.md and the check values of
20_memory.md), the smoke test of `WellFormed`, and a witness for the hypotheses of every obligation that has some. -/

namespace Sys2Proof.Tests

-- One test after another: tests that wait for the kernel side by side each hold a thread.
set_option Elab.async false

open Sys2Proof Sys2Proof.Machine

/-! ### Helpers -/

/-- The key of section 2 of 95_test_vectors.md. -/
def keyK : MasterKey :=
  blockOfDigits 0xfedcba98765432100123456789abcdef ++ blockOfDigits 0x8899aabbccddeeff0011223344556677

/-- Its plaintext. -/
def plainP : Block := blockOfDigits 0x1122334455667700ffeeddccbbaa9988

/-- Its ciphertext. -/
def cipherC : Block := blockOfDigits 0x7f679d90bebc24305a468d42b9d4edcd

/-- The forward schedule of section 2.2. -/
def forwardQ : Schedule :=
  #v[blockOfDigits 0x8899aabbccddeeff0011223344556677, blockOfDigits 0xfedcba98765432100123456789abcdef,
    blockOfDigits 0xdb31485315694343228d6aef8cc78c44, blockOfDigits 0x3d4553d8e9cfec6815ebadc40a9ffd04,
    blockOfDigits 0x57646468c44a5e28d3e59246f429f1ac, blockOfDigits 0xbd079435165c6432b532e82834da581b,
    blockOfDigits 0x51e640757e8745de705727265a0098b1, blockOfDigits 0x5a7925017b9fdd3ed72a91a22286f984,
    blockOfDigits 0xbb44e25378c73123a5f32f73cdb6e517, blockOfDigits 0x72e9dd7416bcf45b755dbaa88e4a4043]

/-- The reverse schedule of section 2.4. -/
def reverseQ : Schedule :=
  #v[blockOfDigits 0x8899aabbccddeeff0011223344556677, blockOfDigits 0x37edf507f2090627477c10b396f35a31,
    blockOfDigits 0xd06f4094f860830093d749cd38939216, blockOfDigits 0xe60fce12efb4465985875cbea0201d6e,
    blockOfDigits 0x0246e0941e5f725e8f57fa98a85835d7, blockOfDigits 0xfb6f7bd4f50a029a654c028fda4f03a6,
    blockOfDigits 0x413d8ed7755fc2b684ac1d5fed62a238, blockOfDigits 0x311fd692c433761e785581d108df5ef4,
    blockOfDigits 0x69d180f40653b3cc3974647955e68328, blockOfDigits 0x72e9dd7416bcf45b755dbaa88e4a4043]

/-- The reset state with a status, a store and frames to take. -/
def stateWith (st : Status) (Q : Schedule) (frames : List Frame) : State :=
  { State.reset with st := st, rk := Q, input := frames }

/-- The state one step later. -/
def after (s : State) : Option State :=
  match step s with
  | .next t => some t
  | .fault _ => none
  | .refused _ => none

/-- What a test reads one step later is read of a next state. -/
theorem step_of_after {α : Type} {s : State} {f : State → α} {a : α} (h : (after s).map f = some a) :
    ∃ t, step s = .next t ∧ f t = a := by
  cases hs : step s with
  | next t => exact ⟨t, rfl, by simpa [after, hs] using h⟩
  | fault r => simp [after, hs] at h
  | refused r => simp [after, hs] at h

/-- Status, responses and frames left, one step later. -/
def shell (s : State) : Option (Status × List Frame × List Frame) :=
  (after s).map fun t => (t.st, t.output, t.input)

/-! ### WellFormed: an ill-formed frame for each of its checks, refused by the check and by the decoder. An ill-formed
instruction cannot be written down (`wellFormed_all`). -/

theorem test_wellFormed_no_opcode : Frame.wellFormed [] = false ∧ decode [] = .error .sizeViolation := by decide

theorem test_wellFormed_illegal_opcode :
    Frame.wellFormed [0x00] = false ∧ Frame.wellFormed [0x08] = false ∧ Frame.wellFormed [0xff] = false ∧
    decode [0x00] = .error .illegalOpcode ∧ decode [0x08] = .error .illegalOpcode ∧
    decode [0xff] = .error .illegalOpcode := by decide

theorem test_wellFormed_wrong_length :
    Frame.wellFormed [0x06, 0x00] = false ∧ Frame.wellFormed [0x07, 0x00] = false ∧
    Frame.wellFormed (0x03 :: List.replicate 15 0) = false ∧ Frame.wellFormed (0x04 :: List.replicate 17 0) = false ∧
    Frame.wellFormed (0x01 :: List.replicate 31 0) = false ∧ Frame.wellFormed (0x02 :: List.replicate 33 0) = false ∧
    Frame.wellFormed (0x05 :: List.replicate 159 0) = false ∧
    decode (0x03 :: List.replicate 15 0) = .error .sizeViolation := by decide +kernel

theorem test_wellFormed_every_command_is :
    Instr.wellFormed (.schf 0) = true ∧ Instr.wellFormed (.schr 0) = true ∧ Instr.wellFormed (.enc 0) = true ∧
    Instr.wellFormed (.dec 0) = true ∧ Instr.wellFormed (.wrrk forwardQ) = true ∧ Instr.wellFormed .rdrk = true ∧
    Instr.wellFormed .rdst = true := by decide +kernel

/-! ### Decoding: frames written out from the formats of R81 and the opcodes of R82; the payloads are those of programs
4.1, 4.2 and 4.4. -/

theorem test_decode_schf :
    decode [0x01, 0x88, 0x99, 0xaa, 0xbb, 0xcc, 0xdd, 0xee, 0xff, 0x00, 0x11, 0x22, 0x33, 0x44, 0x55, 0x66, 0x77,
      0xfe, 0xdc, 0xba, 0x98, 0x76, 0x54, 0x32, 0x10, 0x01, 0x23, 0x45, 0x67, 0x89, 0xab, 0xcd, 0xef] =
    .ok (.schf 0xefcdab89674523011032547698badcfe7766554433221100ffeeddccbbaa9988) := by decide +kernel

theorem test_decode_schr :
    decode [0x02, 0x88, 0x99, 0xaa, 0xbb, 0xcc, 0xdd, 0xee, 0xff, 0x00, 0x11, 0x22, 0x33, 0x44, 0x55, 0x66, 0x77,
      0xfe, 0xdc, 0xba, 0x98, 0x76, 0x54, 0x32, 0x10, 0x01, 0x23, 0x45, 0x67, 0x89, 0xab, 0xcd, 0xef] =
    .ok (.schr 0xefcdab89674523011032547698badcfe7766554433221100ffeeddccbbaa9988) := by decide +kernel

theorem test_decode_enc :
    decode [0x03, 0x11, 0x22, 0x33, 0x44, 0x55, 0x66, 0x77, 0x00, 0xff, 0xee, 0xdd, 0xcc, 0xbb, 0xaa, 0x99, 0x88] =
    .ok (.enc 0x8899aabbccddeeff0077665544332211) := by decide +kernel

theorem test_decode_dec :
    decode [0x04, 0x7f, 0x67, 0x9d, 0x90, 0xbe, 0xbc, 0x24, 0x30, 0x5a, 0x46, 0x8d, 0x42, 0xb9, 0xd4, 0xed, 0xcd] =
    .ok (.dec 0xcdedd4b9428d465a3024bcbe909d677f) := by decide +kernel

theorem test_decode_wrrk : decode (0x05 ::
    ([0x88, 0x99, 0xaa, 0xbb, 0xcc, 0xdd, 0xee, 0xff, 0x00, 0x11, 0x22, 0x33, 0x44,
      0x55, 0x66, 0x77, 0xfe, 0xdc, 0xba, 0x98, 0x76, 0x54, 0x32, 0x10, 0x01, 0x23, 0x45, 0x67, 0x89, 0xab, 0xcd, 0xef] ++
      List.replicate 127 0x00 ++ [0x43])) =
    .ok (.wrrk #v[0x7766554433221100ffeeddccbbaa9988, 0xefcdab89674523011032547698badcfe, 0, 0, 0, 0, 0, 0, 0,
      0x43000000000000000000000000000000]) := by decide +kernel

theorem test_decode_rdrk : decode [0x06] = .ok .rdrk := by decide

theorem test_decode_rdst : decode [0x07] = .ok .rdst := by decide

/-- The opcode table's rows, numbered its way: eight bits, then zeros up to the format's length. -/
theorem test_table_words :
    decodeTableWord 8 0x01 = some (.schf 0) ∧ decodeTableWord 8 0x02 = some (.schr 0) ∧
    decodeTableWord 8 0x03 = some (.enc 0) ∧ decodeTableWord 8 0x04 = some (.dec 0) ∧
    decodeTableWord 8 0x05 = some (.wrrk #v[0, 0, 0, 0, 0, 0, 0, 0, 0, 0]) ∧ decodeTableWord 8 0x06 = some .rdrk ∧
    decodeTableWord 8 0x07 = some .rdst ∧ decodeTableWord 8 0x00 = none ∧ decodeTableWord 8 0x08 = none ∧
    decodeTableWord 8 0xff = none := by decide +kernel

/-- The placed frame is the next one taken, and what stood in `IN` follows. -/
theorem test_withFetchWord : shell ((stateWith 0x02 reverseQ [[0x06]]).withFetchWord 8 0x07) =
    some (0x02, [[0x02]], [[0x06]]) := by decide +kernel

/-! ### The tables and the primitives, with the default tables (95_test_vectors.md 2.1, 3.1, 3.2, 3.3; 20_memory.md
R62 to R68) -/

theorem test_sub : SUB defaultTables (blockOfDigits 0xffeeddccbbaa99881122334455667700) =
    blockOfDigits 0xb66cd8887d38e8d77765aeea0c9a7efc := by decide +kernel

theorem test_isub : ISUB defaultTables (blockOfDigits 0x00112233445566778899aabbccddeeff) =
    blockOfDigits 0xa5038d9da7b6f911cc16da1b4f020174 := by decide +kernel

theorem test_ls_zero : LS defaultTables 0 = blockOfDigits 0x50460db38031ef0541d1abd0a13fbc4e := by decide +kernel

theorem test_ls : LS defaultTables (blockOfDigits 0x00112233445566778899aabbccddeeff) =
    blockOfDigits 0x0c349d123f20ac783fcf2ae4ba2dbc6c := by decide +kernel

/-- `ILS(LS(B))` is not `B` (3.2). -/
theorem test_ils : ILS defaultTables (blockOfDigits 0x0c349d123f20ac783fcf2ae4ba2dbc6c) =
    blockOfDigits 0x26c05f21f5c40a885855489f374c8bb3 := by decide +kernel

/-- One chain line of `R` (2.1), and `RC[0] = M(e(15, 1))`. -/
theorem test_standard_matrix :
    stepR (blockOfDigits 0x94000000000000000000000000000001) = blockOfDigits 0xa5940000000000000000000000000000 ∧
    standardM (unitBlock 15 1) = readRC defaultTables 0 := by decide +kernel

theorem test_linear_table_entries :
    readLTF defaultTables 15 0x01 = ⟨0x7bce1a17b28ce008, 0xee0af2fef8abfc32⟩ ∧
    readLTI defaultTables 7 0x80 = ⟨0x255e865b6107267b, 0xa86769cba39ff48f⟩ := by decide +kernel

theorem test_halves :
    hl (blockOfDigits 0x00112233445566778899aabbccddeeff) = 0x7766554433221100 ∧
    hr (blockOfDigits 0x00112233445566778899aabbccddeeff) = 0xffeeddccbbaa9988 := by decide +kernel

/-- The first round of the second pair: the constant is `RC[8]` (3.3). -/
theorem test_feistel : FEISTEL defaultTables (constantIndex 1 0) (forwardQ[2], forwardQ[3]) =
    (blockOfDigits 0x9fd115429e5cba6e2dd392b66b088952, blockOfDigits 0xdb31485315694343228d6aef8cc78c44) := by
  decide +kernel

/-! ### One step of each command -/

/-- SCHF writes the ten keys of section 2.2. -/
theorem test_schf_schedule : (after (stateWith 0x00 State.reset.rk [encode (.schf keyK)])).map (fun t => t.rk) =
    some forwardQ := by decide +kernel

/-- No response, `KST` = `FWD`. -/
theorem test_schf_shell : shell (stateWith 0x00 State.reset.rk [encode (.schf keyK), [0x07]]) =
    some (0x01, [], [[0x07]]) := by decide +kernel

/-- Entry 1 of section 2.4: the first transformed key. -/
theorem test_schr_entry : (after (stateWith 0x01 forwardQ [encode (.schr keyK)])).map (fun t => t.rk[1]) =
    some (reverseQ[1]) := by decide +kernel

theorem test_schr_shell : shell (stateWith 0x03 forwardQ [encode (.schr keyK), [0x07]]) =
    some (0x02, [], [[0x07]]) := by decide +kernel

/-- The known answer of section 2.3, and `BLK` keeps it. -/
theorem test_enc : (after (stateWith 0x01 forwardQ [encode (.enc plainP)])).map (fun t => (t.blk, t.output)) =
    some (cipherC,
      [[0x7f, 0x67, 0x9d, 0x90, 0xbe, 0xbc, 0x24, 0x30, 0x5a, 0x46, 0x8d, 0x42, 0xb9, 0xd4, 0xed, 0xcd]]) := by
  decide +kernel

theorem test_enc_empty_store : shell (stateWith 0x00 State.reset.rk [encode (.enc plainP)]) = some (0x1c, [], []) := by
  decide +kernel

/-- The known answer of section 2.4. -/
theorem test_dec : (after (stateWith 0x02 reverseQ [encode (.dec cipherC)])).map (fun t => (t.blk, t.st)) =
    some (plainP, 0x02) := by decide +kernel

/-- A schedule of the wrong kind is no fault (3.4). -/
theorem test_dec_wrong_kind : (after (stateWith 0x01 forwardQ [encode (.dec cipherC)])).map (fun t => t.blk) =
    some (blockOfDigits 0x106a1cb31a3fb09cab0d5d5566acc6a5) := by decide +kernel

theorem test_wrrk : (after (stateWith 0x02 reverseQ [encode (.wrrk forwardQ)])).map (fun t => (t.rk, t.st, t.output)) =
    some (forwardQ, 0x03, []) := by decide +kernel

/-- The first and the last bytes of the 160 (4.4). -/
theorem test_rdrk : (after (stateWith 0x03 forwardQ [[0x06]])).map (fun t =>
      (t.st, t.output.map fun r => (r.length, r.take 4, r.drop 156))) =
    some (0x03, [(160, [0x88, 0x99, 0xaa, 0xbb], [0x8e, 0x4a, 0x40, 0x43])]) := by decide +kernel

theorem test_rdrk_empty_store : shell (stateWith 0x00 forwardQ [[0x06]]) = some (0x1c, [], []) := by decide +kernel

/-- RDST is answered in the faulted state (3.6). -/
theorem test_rdst : shell (stateWith 0x14 forwardQ [[0x07]]) = some (0x14, [[0x14]], []) := by decide +kernel

/-! ### Faults, the faulted state and reset (3.6, 4.3, 4.6) -/

theorem test_illegal_opcode :
    shell (stateWith 0x01 forwardQ [[0x09, 0xaa, 0xbb, 0xcc, 0xdd]]) = some (0x0d, [], []) := by
  decide +kernel

theorem test_size_violation :
    [stateWith 0x01 forwardQ [0x03 :: List.replicate 15 0x11], stateWith 0x00 forwardQ [0x03 :: List.replicate 15 0x11],
      stateWith 0x00 forwardQ [[]], stateWith 0x02 forwardQ [[0x07, 0x00]]].map shell =
    [some (0x15, [], []), some (0x14, [], []), some (0x14, [], []), some (0x16, [], [])] := by decide +kernel

theorem test_faulted_discards :
    [stateWith 0x1c forwardQ [encode (.schf keyK)], stateWith 0x1c forwardQ [[0x07, 0x00]],
      stateWith 0x1c forwardQ [[]]].map shell =
    [some (0x1c, [], []), some (0x1c, [], []), some (0x1c, [], [])] := by decide +kernel

/-- Reset clears the status and leaves the streams alone (4.3). -/
theorem test_reset : (hostReset { stateWith 0x1c forwardQ [[0x07]] with output := [[0x1c]] }).st = 0x00 ∧
    (hostReset { stateWith 0x1c forwardQ [[0x07]] with output := [[0x1c]] }).output = [[0x1c]] ∧
    (hostReset { stateWith 0x1c forwardQ [[0x07]] with output := [[0x1c]] }).input = [[0x07]] := by decide +kernel

/-! ### The assembler (R88's example line, and a line that is not one) -/

theorem test_assembler_enc :
    (parseLine ['E', 'N', 'C', ' ', '1', '1', '2', '2', '3', '3', '4', '4', '5', '5', '6', '6', '7', '7', '0', '0', 'f', 'f',
      'e', 'e', 'd', 'd', 'c', 'c', 'b', 'b', 'a', 'a', '9', '9', '8', '8', ' ', ';', ' ', 'x']).map AsmLine.actions =
    some [.send [0x03, 0x11, 0x22, 0x33, 0x44, 0x55, 0x66, 0x77, 0x00, 0xff, 0xee, 0xdd, 0xcc, 0xbb, 0xaa, 0x99, 0x88]] := by
  decide +kernel

theorem test_assembler_refuses :
    parseLine ['R', 'D', 'S', 'T', ' ', '0', '0'] = none ∧ parseLine ['E', 'N', 'C', ' ', '1', '1'] = none ∧
    parseLine ['r', 'd', 's', 't'] = none := by decide +kernel

/-! ### Witnesses: concrete inputs that meet the hypotheses of the obligations, clause by clause, at the ends of their
ranges -/

/-- A state without a fault and with a schedule, and one whose core is faulted. -/
def goodState : State := stateWith 0x01 forwardQ []
def faultedState : State := stateWith 0x1c forwardQ []

theorem witness_DecodeInvertsEncode : Instr.wellFormed (.dec cipherC) = true := by decide +kernel

theorem witness_EncodeInvertsDecode : decode [0x06] = .ok .rdrk := by decide

theorem witness_EveryFrameIsACommandOrAFault :
    (¬((0x01 : Byte) ≤ 0x00 ∧ (0x00 : Byte) ≤ 0x07) ∧ ¬((0x01 : Byte) ≤ 0x08 ∧ (0x08 : Byte) ≤ 0x07)) ∧
    ((0x01 : Byte) ≤ 0x01 ∧ (0x01 : Byte) ≤ 0x07 ∧ (List.replicate 31 (0 : Byte)).length + 1 ≠ frameLength 0x01) ∧
    ((0x01 : Byte) ≤ 0x07 ∧ (0x07 : Byte) ≤ 0x07 ∧ ([0x00] : List Byte).length + 1 ≠ frameLength 0x07) ∧
    ((0x01 : Byte) ≤ 0x01 ∧ (0x01 : Byte) ≤ 0x07 ∧ (List.replicate 32 (0 : Byte)).length + 1 = frameLength 0x01) ∧
    ((0x01 : Byte) ≤ 0x07 ∧ (0x07 : Byte) ≤ 0x07 ∧ ([] : List Byte).length + 1 = frameLength 0x07) := by decide +kernel

theorem witness_WireOrderIsByteZeroFirst :
    (blockBytes plainP).length = 16 ∧ (bytesOf 32 keyK).length = 32 ∧ (scheduleBytes forwardQ).length = 160 := by
  decide +kernel

theorem witness_TransformsFollowTheirTables : positions.reverse.Perm positions := List.reverse_perm _

theorem witness_TransformIdentities : defaultTables.LinearContractWith (matrixTimes MM) (matrixTimes MMI) :=
  Laws.defaultTables_linearContractWith

theorem witness_TransformsAreBijections : defaultTables.LinearContract := Laws.defaultTables_linearContract

/-- Tables that share exactly what a clause of FunctionsReadOnlyTheirTables asks. -/
def otherTables (T : Tables) (clause : Fin 4) : Tables :=
  match clause with
  | 0 => { T with s := T.sinv, sinv := T.s, lti := T.ltf }
  | 1 => { T with sinv := T.s }
  | 2 => { T with s := T.sinv, sinv := T.s, lti := T.ltf, rc := T.rc.set 0 0 }
  | 3 => { T with ltf := T.lti, rc := T.rc.set 0 0 }

theorem witness_FunctionsReadOnlyTheirTables (T : Tables) :
    (T.ltf = (otherTables T 0).ltf ∧ T.rc = (otherTables T 0).rc) ∧
    (T.ltf = (otherTables T 1).ltf ∧ T.rc = (otherTables T 1).rc ∧ T.s = (otherTables T 1).s ∧
      T.lti = (otherTables T 1).lti) ∧
    T.ltf = (otherTables T 2).ltf ∧
    (T.s = (otherTables T 3).s ∧ T.sinv = (otherTables T 3).sinv ∧ T.lti = (otherTables T 3).lti) :=
  ⟨⟨rfl, rfl⟩, ⟨rfl, rfl, rfl, rfl⟩, rfl, rfl, rfl, rfl⟩

theorem witness_KeyScheduleStability :
    ((0 : Fin 10) = 0 ∨ (0 : Fin 10) = 9) ∧ ((9 : Fin 10) = 0 ∨ (9 : Fin 10) = 9) ∧
    ((1 : Fin 10) ≤ 1 ∧ (1 : Fin 10) ≤ 8) ∧ ((1 : Fin 10) ≤ 8 ∧ (8 : Fin 10) ≤ 8) := by decide

theorem witness_ForwardScheduleIsRecoverable : defaultTables.LinearContract ∧ (1 : Fin 10) ≤ 1 ∧ (8 : Fin 10) ≤ 8 :=
  ⟨Laws.defaultTables_linearContract, by decide⟩

/-- One frame for each cause; the fourth is a command on an empty store. -/
theorem witness_FaultEntry :
    [[], [0x00], [0x03], [0x06]].map (admission 0x00) =
      [.raise .sizeViolation, .raise .illegalOpcode, .raise .sizeViolation, .raise .noSchedule] ∧
    (stateWith 0x00 forwardQ [[0x06]]).input = [0x06] :: [] := by decide +kernel

theorem witness_FaultedCoreAnswersOnlyStatus :
    faultOf faultedState.st = true ∧ (stateWith 0x1c forwardQ [[0x07]]).input = [0x07] :: [] ∧
    ([0x07, 0x00] : Frame) ≠ [0x07] ∧ ([] : Frame) ≠ [0x07] := by decide +kernel

theorem witness_OnlyResetLeavesTheFaultedState :
    (∃ t, systemStep .core (stateWith 0x1c forwardQ [[0x06]]) = .next t ∧
      faultOf (stateWith 0x1c forwardQ [[0x06]]).st = true ∧ Event.core ≠ .host .reset) ∧
    (∃ t, systemStep (.host .reset) faultedState = .next t) :=
  ⟨⟨_, rfl, by decide, by decide⟩, ⟨_, rfl⟩⟩

theorem witness_NoScheduleBeforeUse :
    readsStore (.enc plainP) = true ∧ readsStore (.dec cipherC) = true ∧ readsStore .rdrk = true ∧
    faultOf State.reset.st = false ∧ kstOf State.reset.st = .EMPTY := by decide

/-- Two states with different pasts: one faulted, one not. -/
theorem witness_ResetForgetsThePast :
    goodState.tables = faultedState.tables ∧ goodState.input = faultedState.input ∧
    goodState.output = faultedState.output ∧ goodState.st ≠ faultedState.st :=
  ⟨rfl, rfl, rfl, by decide⟩

theorem witness_StepRunsTheDecodedCommand :
    (stateWith 0x01 forwardQ [[0x06], [0x07]]).input = [0x06] :: [[0x07]] ∧ decode [0x06] = .ok .rdrk := by decide +kernel

/-- The three answers of the decoder. -/
theorem witness_StepFollowsTheDecoderPseudocode :
    (stateWith 0x1c forwardQ [[0x06], [0x07]]).input = [0x06] :: [[0x07]] ∧
    admission 0x1c [0x06] = .discard ∧ admission 0x00 [0x06] = .raise .noSchedule ∧
    admission 0x01 [0x06] = .run .rdrk := by decide +kernel

theorem witness_EveryStepHasANextState : State.reset.input = [] := rfl

/-- The states of the command statements: each status without a fault, and the kind of schedule it names. -/
theorem witness_statuses :
    [0x00, 0x01, 0x02, 0x03].map faultOf = [false, false, false, false] ∧
    [0x00, 0x01, 0x02, 0x03].map kstOf = [.EMPTY, .FWD, .REV, .RAW] := by decide

theorem witness_SchfWritesTheForwardSchedule :
    faultOf goodState.st = false ∧ (List.replicate 32 (0 : Byte)).length = 32 ∧
    (List.replicate 31 (0 : Byte)).length ≠ 32 ∧ (List.replicate 33 (0 : Byte)).length ≠ 32 := by decide +kernel

theorem witness_SchrWritesTheReverseSchedule :
    faultOf goodState.st = false ∧ (List.replicate 32 (0 : Byte)).length = 32 ∧
    (List.replicate 31 (0 : Byte)).length ≠ 32 ∧ (List.replicate 33 (0 : Byte)).length ≠ 32 := by decide +kernel

theorem witness_EncEmitsTheEncryptedBlock :
    faultOf goodState.st = false ∧ kstOf goodState.st ≠ .EMPTY ∧ faultOf State.reset.st = false ∧
    kstOf State.reset.st = .EMPTY ∧ (List.replicate 16 (0 : Byte)).length = 16 ∧
    (List.replicate 15 (0 : Byte)).length ≠ 16 ∧ (List.replicate 17 (0 : Byte)).length ≠ 16 := by decide +kernel

theorem witness_DecEmitsTheDecryptedBlock :
    faultOf goodState.st = false ∧ kstOf goodState.st ≠ .EMPTY ∧ faultOf State.reset.st = false ∧
    kstOf State.reset.st = .EMPTY ∧ (List.replicate 16 (0 : Byte)).length = 16 ∧
    (List.replicate 15 (0 : Byte)).length ≠ 16 ∧ (List.replicate 17 (0 : Byte)).length ≠ 16 := by decide +kernel

theorem witness_WrrkWritesTheStore :
    faultOf goodState.st = false ∧ (List.replicate 160 (0 : Byte)).length = 160 ∧
    (List.replicate 159 (0 : Byte)).length ≠ 160 ∧ (List.replicate 161 (0 : Byte)).length ≠ 160 := by decide +kernel

theorem witness_RdrkEmitsTheStore :
    faultOf goodState.st = false ∧ kstOf goodState.st ≠ .EMPTY ∧ faultOf State.reset.st = false ∧
    kstOf State.reset.st = .EMPTY ∧ ([0x00] : List Byte) ≠ [] := by decide

theorem witness_RdstEmitsTheStatus :
    ([0x00] : List Byte) ≠ [] ∧ (stateWith 0x01 forwardQ [[0x07, 0x00]]).input = (0x07 :: [0x00]) :: [] ∧
    (stateWith 0x1c forwardQ [[0x07, 0x00]]).input = (0x07 :: [0x00]) :: [] := by decide +kernel

/-- The invariant of a state with a fault and a response outstanding. -/
theorem witness_invariant : State.Inv { stateWith 0x1c forwardQ [[0x07]] with output := [[0x1c]] } := by
  refine ⟨by unfold legalStatus; decide, ?_⟩
  intro r hr
  exact .inl (by rw [List.mem_singleton.mp hr]; rfl)

theorem witness_ReadOutScheduleWritesBack : faultOf goodState.st = false ∧ kstOf goodState.st ≠ .EMPTY := by decide

theorem witness_OneResponsePerAnsweredCommand :
    (faultOf goodState.st = false ∧ (readsStore .rdrk = true → kstOf goodState.st ≠ .EMPTY)) ∧
    (faultOf faultedState.st = true ∧ Instr.rdrk ≠ .rdst) ∧
    (faultOf State.reset.st = false ∧ readsStore .rdrk = true ∧ kstOf State.reset.st = .EMPTY) := by decide

theorem witness_RoundTrip : State.reset.tables.LinearContract ∧ faultOf State.reset.st = false :=
  ⟨Laws.defaultTables_linearContract, by decide⟩

theorem witness_InvariantKept :
    State.Inv { stateWith 0x1c forwardQ [[0x07]] with output := [[0x1c]] } ∧
    ∃ t, systemStep .core { stateWith 0x1c forwardQ [[0x07]] with output := [[0x1c]] } = .next t :=
  ⟨witness_invariant, _, rfl⟩

/-- States that differ in every register no command shows, the store too while it is empty. -/
theorem witness_HiddenRegistersNeverShow (s : State) :
    Indistinguishable s { s with blk := ~~~s.blk, acc := ⟨s.acc.r, s.acc.l⟩, w := ⟨s.w.r, s.w.l, s.w.u, s.w.t⟩ } ∧
    Indistinguishable (stateWith 0x00 forwardQ [[0x06]]) (stateWith 0x00 reverseQ [[0x06]]) :=
  ⟨⟨rfl, rfl, rfl, rfl, fun _ => rfl⟩, rfl, rfl, rfl, rfl, fun h => absurd (by decide) h⟩

theorem witness_TablesNeverChange :
    (∃ t, systemStep .core (stateWith 0x01 forwardQ [[0x06]]) = .next t) ∧
    ∃ t, systemStep (.host .reset) goodState = .next t :=
  ⟨⟨_, rfl⟩, _, rfl⟩

theorem witness_StoreAndBlockHaveTheirWriters :
    (∃ t, exec .rdrk goodState = .next t ∧ writesStore .rdrk = false) ∧
    (exec (.enc plainP) { goodState with blk := 0 } =
        .next (storeCommand { goodState with blk := 0 } (blockCommand opEncryptBlock plainP)) ∧
      (storeCommand { goodState with blk := 0 } (blockCommand opEncryptBlock plainP)).blk ≠ 0) ∧
    (kstOf (stateWith 0x02 reverseQ [encode (.wrrk forwardQ)]).st = .REV ∧
      ∃ t, step (stateWith 0x02 reverseQ [encode (.wrrk forwardQ)]) = .next t ∧
        (t.rk, t.st, t.output) = (forwardQ, 0x03, [])) :=
  ⟨⟨_, rfl, rfl⟩, ⟨rfl, by decide +kernel⟩, by decide, step_of_after test_wrrk⟩

theorem witness_ContractMapsAreMatrices : defaultTables.ContractWith gmul 1 MM (matrixTimes MMI) :=
  Laws.defaultTables_contractWith

end Sys2Proof.Tests
end

section
/-! SUPPORT. The halves of a block byte by byte (00_scope.md R11). -/

namespace Sys2Proof.Laws

open Sys2Proof

/-- A field of a field is a field of the register. -/
theorem extractLsb'_of_extractLsb' {w a b m n : Nat} (x : BitVec w) (h : b + n ≤ m) :
    (x.extractLsb' a m).extractLsb' b n = x.extractLsb' (a + b) n := by
  apply BitVec.eq_of_getLsbD_eq
  intro i hi
  have hm : b + i < m := by omega
  simp [BitVec.getLsbD_extractLsb', hm, Nat.add_assoc]

/-- Byte `k` of the left half is byte `k` of the block (R11). -/
theorem extract_hl (B : Block) (k : Fin 8) : (hl B).extractLsb' (8 * k) 8 = byteAt B ⟨k, by omega⟩ := by
  rw [hl, extractLsb'_of_extractLsb' B (by omega), Nat.zero_add, byteAt]

/-- Byte `k` of the right half is byte `8 + k` of the block (R11). -/
theorem extract_hr (B : Block) (k : Fin 8) : (hr B).extractLsb' (8 * k) 8 = byteAt B ⟨8 + k, by omega⟩ := by
  rw [hr, extractLsb'_of_extractLsb' B (by omega), byteAt, Nat.mul_add]

/-- Settles O6: the bytes of the halves by `extract_hl` and `extract_hr`, the rest by the laws of `blk` and `e(p, v)`. -/
theorem halvesAreLittleEndian : Obligations.HalvesAreLittleEndian :=
  ⟨fun B k => ⟨extract_hl B k, extract_hr B k⟩, blk_halves, fun h => ⟨hl_blk h, hr_blk h⟩, byteAt_unitBlock⟩

end Sys2Proof.Laws
end

section
/-! SUPPORT. Run on the hidden registers, the pseudocode of the four cipher commands computes the pure functions, whatever
the registers and the store held before (41_key_schedule.md R140, R144; 42_block_engine.md R160, R162). -/

namespace Sys2Proof.Laws

open Sys2Proof

/-- The result of one derived pair (R140), as an equation on the store alone. -/
theorem opDerivePair_fst (T : Tables) (x : Schedule × Datapath) (j : Fin 4) :
    (opDerivePair T x j).1 =
      (x.1.set (2 * j.val + 2) (derivePair T j (x.1[2 * j.val]'(by omega), x.1[2 * j.val + 1]'(by omega))).1
        (by omega)).set (2 * j.val + 3)
          (derivePair T j (x.1[2 * j.val]'(by omega), x.1[2 * j.val + 1]'(by omega))).2 (by omega) :=
  (opDerivePair_step T x.1 x.2 j).1

/-- All ten entries are written, so what the store held is lost (R140). -/
@[simp] theorem opScheduleForward_fst (T : Tables) (K : MasterKey) (RK : Schedule) (d : Datapath) :
    (opScheduleForward T K RK d).1 = scheduleForward T K := by
  apply schedule_ext
  intro i
  simp only [opScheduleForward, pairs, List.foldl_cons, List.foldl_nil, opDerivePair_fst]
  fin_cases i <;> simp [scheduleForward, scheduleOfPairs]

@[simp] theorem opScheduleReverse_fst (T : Tables) (K : MasterKey) (RK : Schedule) (d : Datapath) :
    (opScheduleReverse T K RK d).1 = scheduleReverse T K := by
  rw [opScheduleReverse, (foldl_opTransformKey T _ _ _).1, opScheduleForward_fst, scheduleReverse]

@[simp] theorem opEncryptBlock_fst (T : Tables) (Q : Schedule) (P : Block) (d : Datapath) :
    (opEncryptBlock T Q P d).1 = encryptBlock T Q P := by
  simp only [opEncryptBlock, opX_fst, (foldl_opEncryptRound T Q _ _ _).1, encryptBlock]

@[simp] theorem opDecryptBlock_fst (T : Tables) (Q : Schedule) (C : Block) (d : Datapath) :
    (opDecryptBlock T Q C d).1 = decryptBlock T Q C := by
  simp only [opDecryptBlock, opX_fst, opSUB_fst, opILS_fst, opISUB_fst, (foldl_opDecryptRound T Q _ _ _).1, decryptBlock]

end Sys2Proof.Laws
end

section
/-! SUPPORT. Noninterference of the hidden registers (00_scope.md R9, R13; 10_state.md R31): `Indistinguishable` is kept
by every operation the commands are written with, so by every command, step, host action and run. -/

namespace Sys2Proof.Laws

open Sys2Proof Sys2Proof.Machine

/-- A step on the frame of a command. -/
theorem step_ok {s : State} {f : Frame} {rest : List Frame} {i : Instr} (h : s.input = f :: rest)
    (hd : decode f = .ok i) : step s = exec i { s with input := rest } := by
  simp [step, fetch_cons h, hd]

end Sys2Proof.Laws

namespace Sys2Proof.Machine

open Sys2Proof Sys2Proof.Laws

/-- Two runs answered with next states that no command tells apart. -/
def AnswerAlike (x y : Host.Outcome State Fault Refusal) : Prop :=
  ∃ s t, x = .next s ∧ y = .next t ∧ Indistinguishable s t

theorem AnswerAlike.next {s t : State} (h : Indistinguishable s t) : AnswerAlike (.next s) (.next t) :=
  ⟨s, t, rfl, rfl, h⟩

section
variable {s t : State} (h : Indistinguishable s t)
include h

theorem Indistinguishable.tables_eq : s.tables = t.tables :=
  let ⟨htables, _⟩ := h
  htables

theorem Indistinguishable.st_eq : s.st = t.st :=
  let ⟨_, hst, _⟩ := h
  hst

theorem Indistinguishable.input_eq : s.input = t.input :=
  let ⟨_, _, hinput, _⟩ := h
  hinput

theorem Indistinguishable.output_eq : s.output = t.output :=
  let ⟨_, _, _, houtput, _⟩ := h
  houtput

theorem Indistinguishable.rk_eq : kstOf s.st ≠ .EMPTY → s.rk = t.rk :=
  let ⟨_, _, _, _, hrk⟩ := h
  hrk

/-! ### The shared operations -/

theorem indistinguishable_input (frames : List Frame) :
    Indistinguishable { s with input := frames } { t with input := frames } :=
  ⟨h.tables_eq, h.st_eq, rfl, h.output_eq, h.rk_eq⟩

theorem indistinguishable_emit (r : Frame) : Indistinguishable (emit r s) (emit r t) :=
  ⟨h.tables_eq, h.st_eq, h.input_eq, congrArg (· ++ [r]) h.output_eq, h.rk_eq⟩

/-- A fault keeps `KST`, so stores that had to agree still do. -/
theorem indistinguishable_raiseFault (c : FaultCause) : Indistinguishable (raiseFault c s) (raiseFault c t) :=
  ⟨h.tables_eq, congrArg (setFault c) h.st_eq, h.input_eq, h.output_eq, by simpa using h.rk_eq⟩

/-- A write of the store makes two stores agree, whatever they held. -/
theorem indistinguishable_writeStore (Q : Schedule) (k : ScheduleKind) :
    Indistinguishable (writeStore Q k s) (writeStore Q k t) :=
  ⟨h.tables_eq, congrArg (setKst k) h.st_eq, h.input_eq, h.output_eq, fun _ => rfl⟩

/-- `ACC` and `W` are not compared. -/
theorem indistinguishable_retireScheduler : Indistinguishable (retireScheduler s) (retireScheduler t) := h

/-- The store is empty after a reset, so the two need not agree on it. -/
theorem indistinguishable_hostReset : Indistinguishable (hostReset s) (hostReset t) :=
  ⟨h.tables_eq, rfl, h.input_eq, h.output_eq, fun hk => absurd kstOf_zero hk⟩

theorem indistinguishable_command {f g : State → State} (hrun : Indistinguishable (f s) (g t)) :
    Indistinguishable (command s f) (command t g) := by
  have hst := h.st_eq
  cases hf : faultOf s.st
  · rw [command_ok f hf, command_ok g (hst ▸ hf)]
    exact hrun
  · rw [command_faulted f hf, command_faulted g (hst ▸ hf)]
    exact h

/-- A command that reads the store runs only where the two stores agree. -/
theorem indistinguishable_storeCommand {f g : State → State} (hrun : s.rk = t.rk → Indistinguishable (f s) (g t)) :
    Indistinguishable (storeCommand s f) (storeCommand t g) := by
  have hst := h.st_eq
  apply indistinguishable_command h
  by_cases hk : kstOf s.st = .EMPTY
  · rw [if_pos hk, if_pos (hst ▸ hk)]
    exact indistinguishable_raiseFault h .noSchedule
  · rw [if_neg hk, if_neg (hst ▸ hk)]
    exact hrun (h.rk_eq hk)

theorem indistinguishable_reject (c : FaultCause) : Indistinguishable (reject c s) (reject c t) :=
  indistinguishable_command h (f := raiseFault c) (g := raiseFault c) (indistinguishable_raiseFault h c)

/-- A block transform that computes a pure function of the tables, the store and the block shows nothing else. -/
theorem indistinguishable_blockCommand {transform : Tables → Schedule → Block → Datapath → Block × Datapath}
    {cipher : Tables → Schedule → Block → Block} (hcipher : ∀ T Q B d, (transform T Q B d).1 = cipher T Q B)
    (block : Block) (hrk : s.rk = t.rk) :
    Indistinguishable (blockCommand transform block s) (blockCommand transform block t) := by
  simp only [blockCommand_eq, hcipher, h.tables_eq, hrk]
  exact ⟨rfl, h.st_eq, h.input_eq, congrArg (· ++ _) h.output_eq, fun _ => rfl⟩

/-! ### Commands, steps, host actions and runs -/

theorem exec_answerAlike (i : Instr) : AnswerAlike (exec i s) (exec i t) := by
  cases i with
  | schf key =>
    refine .next (indistinguishable_command h (indistinguishable_retireScheduler ?_))
    rw [opScheduleForward_fst, opScheduleForward_fst, h.tables_eq]
    exact indistinguishable_writeStore h _ .FWD
  | schr key =>
    refine .next (indistinguishable_command h (indistinguishable_retireScheduler ?_))
    rw [opScheduleReverse_fst, opScheduleReverse_fst, h.tables_eq]
    exact indistinguishable_writeStore h _ .REV
  | enc block =>
    exact .next (indistinguishable_storeCommand h (indistinguishable_blockCommand h opEncryptBlock_fst block))
  | dec block =>
    exact .next (indistinguishable_storeCommand h (indistinguishable_blockCommand h opDecryptBlock_fst block))
  | wrrk schedule =>
    exact .next (indistinguishable_command h (indistinguishable_writeStore h schedule .RAW))
  | rdrk =>
    refine .next (indistinguishable_storeCommand h fun hrk => ?_)
    rw [hrk]
    exact indistinguishable_emit h (scheduleBytes t.rk)
  | rdst =>
    refine .next ?_
    rw [h.st_eq]
    exact indistinguishable_emit h [t.st]

theorem step_answerAlike : AnswerAlike (step s) (step t) := by
  have hinput := h.input_eq
  cases hs : s.input with
  | nil =>
    rw [step_nil hs, step_nil (hinput ▸ hs)]
    exact .next h
  | cons f rest =>
    have htaken := indistinguishable_input h rest
    cases hd : decode f with
    | error c =>
      rw [step_error hs hd, step_error (hinput ▸ hs) hd]
      exact .next (indistinguishable_reject htaken c)
    | ok i =>
      rw [step_ok hs hd, step_ok (hinput ▸ hs) hd]
      exact exec_answerAlike htaken i

theorem indistinguishable_hostAct (a : HostAction) : Indistinguishable (hostAct a s) (hostAct a t) := by
  cases a with
  | send f => exact ⟨h.tables_eq, h.st_eq, congrArg (· ++ [f]) h.input_eq, h.output_eq, h.rk_eq⟩
  | receive => exact ⟨h.tables_eq, h.st_eq, h.input_eq, congrArg (List.drop 1) h.output_eq, h.rk_eq⟩
  | reset => exact indistinguishable_hostReset h

theorem systemStep_answerAlike (e : Event) : AnswerAlike (systemStep e s) (systemStep e t) := by
  cases e with
  | core => exact step_answerAlike h
  | host a => exact .next (indistinguishable_hostAct h a)

end

theorem systemRun_answerAlike (es : List Event) {s t : State} (h : Indistinguishable s t) :
    AnswerAlike (systemRun es s) (systemRun es t) := by
  induction es generalizing s t with
  | nil => exact .next h
  | cons e es ih =>
    obtain ⟨s', t', hs, ht, h'⟩ := systemStep_answerAlike h e
    simp only [systemRun, hs, ht]
    exact ih h'

/-- Settles O42, by induction on the events: every event keeps `Indistinguishable`, which includes the responses. -/
theorem hiddenRegistersNeverShow : Obligations.HiddenRegistersNeverShow := by
  intro es s t h
  obtain ⟨s', t', hs, ht, h'⟩ := systemRun_answerAlike es h
  exact ⟨s', t', hs, ht, h', h'.output_eq⟩

end Sys2Proof.Machine
end

section
/-! SUPPORT. What a step can do, said once: the results a command and a step can have, field by field (10_state.md R20
to R24; 30_encoding.md R80, R86). The statements about the state's registers are read off from them. -/

namespace Sys2Proof.Laws

open Sys2Proof Sys2Proof.Machine

/-- The decoder looks at the frame alone, so the empty store is no fault of its own (R86). -/
theorem decode_ne_noSchedule {f : Frame} {c : FaultCause} (h : decode f = .error c) : c ≠ .noSchedule := by
  rintro rfl
  cases f with
  | nil => simp [decode] at h
  | cons op payload =>
    simp only [decode] at h
    split at h
    · simp at h
    · split at h <;> simp at h

/-- A frame the decoder rejects touches nothing but `ST`. -/
theorem reject_frame (c : FaultCause) (s : State) : ∃ st, reject c s = { s with st := st } ∧ kstOf st = kstOf s.st := by
  cases hf : faultOf s.st
  · exact ⟨setFault c s.st, reject_ok c hf, kstOf_setFault c s.st⟩
  · exact ⟨s.st, reject_faulted c hf, rfl⟩

end Sys2Proof.Laws

namespace Sys2Proof.Machine

open Sys2Proof Sys2Proof.Laws

/-- What a command can make of a state. The registers that hold no value after it (R22, R25) are left open. -/
inductive CommandResult (i : Instr) (s : State) : State → Prop
  | discarded (hfault : faultOf s.st = true) : CommandResult i s s
  | noSchedule (hempty : kstOf s.st = .EMPTY) : CommandResult i s (raiseFault .noSchedule s)
  | wroteStore (Q : Schedule) (k : ScheduleKind) (acc : Halves) (w : Scratch) (n : Nat)
      (hwrites : writesStore i = true) (hfault : faultOf s.st = false) :
      CommandResult i s { writeStore Q k s with acc := acc, w := w, freeCount := n }
  | answeredBlock (B : Block) (acc : Halves) (n : Nat) (hblock : ∃ b, i = .enc b ∨ i = .dec b) :
      CommandResult i s { emit (blockBytes B) s with blk := B, acc := acc, freeCount := n }
  | answered (r : Frame) (hlength : r.length = 1 ∨ r.length = 160) : CommandResult i s (emit r s)

namespace CommandResult

variable {i : Instr} {s t : State}

/-- A command that needs no schedule has the result of its run, or is discarded. -/
theorem of_command {run : State → State} (hrun : faultOf s.st = false → CommandResult i s (run s)) :
    CommandResult i s (command s run) := by
  obtain ⟨hf, h⟩ | ⟨hf, h⟩ := command_cases s run
  · rw [h]
    exact .discarded hf
  · rw [h]
    exact hrun hf

/-- A command that reads the store has the result of its run, or is discarded, or finds the store empty. -/
theorem of_storeCommand {run : State → State} (hrun : CommandResult i s (run s)) :
    CommandResult i s (storeCommand s run) := by
  obtain ⟨hf, h⟩ | ⟨-, hk, h⟩ | ⟨-, -, h⟩ := storeCommand_cases s run
  · rw [h]
    exact .discarded hf
  · rw [h]
    exact .noSchedule hk
  · rw [h]
    exact hrun

theorem of_blockCommand (transform : Tables → Schedule → Block → Datapath → Block × Datapath) (block : Block)
    (hblock : ∃ b, i = .enc b ∨ i = .dec b) : CommandResult i s (blockCommand transform block s) :=
  .answeredBlock _ _ _ hblock

end CommandResult

/-- Every command's next state is one of the results. -/
theorem commandResult_of_exec {i : Instr} {s t : State} (h : exec i s = .next t) : CommandResult i s t := by
  cases i with
  | schf key =>
    cases h
    exact .of_command fun hf => .wroteStore _ .FWD _ _ _ rfl hf
  | schr key =>
    cases h
    exact .of_command fun hf => .wroteStore _ .REV _ _ _ rfl hf
  | enc block =>
    cases h
    exact .of_storeCommand (.of_blockCommand opEncryptBlock block ⟨block, .inl rfl⟩)
  | dec block =>
    cases h
    exact .of_storeCommand (.of_blockCommand opDecryptBlock block ⟨block, .inr rfl⟩)
  | wrrk schedule =>
    cases h
    exact .of_command fun hf => .wroteStore schedule .RAW s.acc s.w s.freeCount rfl hf
  | rdrk =>
    cases h
    exact .of_storeCommand (.answered _ (.inr (scheduleBytes_length s.rk)))
  | rdst =>
    cases h
    exact .answered _ (.inl rfl)

/-- What a step can do: wait, reject the frame it takes, or execute its command. -/
theorem step_cases {s t : State} (h : step s = .next t) :
    (s.input = [] ∧ t = s) ∨
    (∃ f rest c, s.input = f :: rest ∧ decode f = .error c ∧ t = reject c { s with input := rest }) ∨
    (∃ f rest i, s.input = f :: rest ∧ decode f = .ok i ∧ CommandResult i { s with input := rest } t) := by
  cases hs : s.input with
  | nil =>
    rw [step_nil hs] at h
    cases h
    exact .inl ⟨rfl, rfl⟩
  | cons f rest =>
    cases hd : decode f with
    | error c =>
      rw [step_error hs hd] at h
      cases h
      exact .inr (.inl ⟨f, rest, c, rfl, hd, rfl⟩)
    | ok i =>
      rw [step_ok hs hd] at h
      exact .inr (.inr ⟨f, rest, i, rfl, hd, commandResult_of_exec h⟩)

end Sys2Proof.Machine
end

section
/-! SUPPORT. The invariant of the state, `State.Inv`: it holds at reset, and the shared operations keep it, so every
event does (10_state.md R24; 43_transfer_status.md R182; 30_encoding.md R84). -/

namespace Sys2Proof.Machine

open Sys2Proof Sys2Proof.Laws

theorem legalStatus_zero : legalStatus 0 := by
  unfold legalStatus
  decide

/-- Without a fault `FCAUSE` is 0, so `NoSchedule` puts no condition on the new `KST`. -/
theorem legalStatus_setKst {st : Status} (h : legalStatus st) (hf : faultOf st = false) (k : ScheduleKind) :
    legalStatus (setKst k st) := by
  obtain ⟨hreserved, hcause, -⟩ := h
  have hzero : fcauseOf st = 0 := by simpa [hf] using hcause
  simp [legalStatus, hreserved, hf, hzero]

theorem code_setWidth_ne_zero (c : FaultCause) : c.code.setWidth 2 ≠ 0 := by
  cases c <;> decide

theorem eq_noSchedule_of_code {c : FaultCause} (h : c.code.setWidth 2 = 3) : c = .noSchedule := by
  cases c with
  | noSchedule => rfl
  | illegalOpcode => exact absurd h (by decide)
  | sizeViolation => exact absurd h (by decide)

/-- Every cause has a nonzero code, and only `NoSchedule` puts a condition on `KST`. -/
theorem legalStatus_setFault {st : Status} (h : legalStatus st) {c : FaultCause}
    (hc : c = .noSchedule → kstOf st = .EMPTY) : legalStatus (setFault c st) := by
  obtain ⟨hreserved, -, -⟩ := h
  refine ⟨by rw [reservedOf_setFault, hreserved], ?_, fun hthree => ?_⟩
  · rw [faultOf_setFault, fcauseOf_setFault]
    exact iff_of_true rfl (code_setWidth_ne_zero c)
  · rw [fcauseOf_setFault] at hthree
    rw [kstOf_setFault, hc (eq_noSchedule_of_code hthree)]

section
variable {s t : State} (h : s.Inv)
include h

theorem inv_emit {r : Frame} (hr : r.length = 1 ∨ r.length = 16 ∨ r.length = 160) : (emit r s).Inv := by
  obtain ⟨hst, hout⟩ := h
  refine ⟨hst, fun r' hr' => ?_⟩
  rcases List.mem_append.mp hr' with hold | hnew
  · exact hout r' hold
  · exact List.mem_singleton.mp hnew ▸ hr

theorem inv_raiseFault {c : FaultCause} (hc : c = .noSchedule → kstOf s.st = .EMPTY) : (raiseFault c s).Inv := by
  obtain ⟨hst, hout⟩ := h
  exact ⟨legalStatus_setFault hst hc, hout⟩

theorem inv_reject {c : FaultCause} (hc : c ≠ .noSchedule) : (reject c s).Inv := by
  cases hf : faultOf s.st
  · rw [reject_ok c hf]
    exact inv_raiseFault h fun hno => absurd hno hc
  · rw [reject_faulted c hf]
    exact h

theorem inv_writeStore (Q : Schedule) (k : ScheduleKind) (hf : faultOf s.st = false) : (writeStore Q k s).Inv := by
  obtain ⟨hst, hout⟩ := h
  exact ⟨legalStatus_setKst hst hf k, hout⟩

/-- `Inv` speaks of `ST` and `OUT` only, so the registers a result leaves open do not matter. -/
theorem inv_commandResult {i : Instr} (hresult : CommandResult i s t) : t.Inv := by
  cases hresult with
  | discarded hfault => exact h
  | noSchedule hempty => exact inv_raiseFault h fun _ => hempty
  | wroteStore Q k acc w n hwrites hfault => exact inv_writeStore h Q k hfault
  | answeredBlock B acc n hblock => exact inv_emit h (.inr (.inl (blockBytes_length B)))
  | answered r hlength => exact inv_emit h (hlength.imp_right .inr)

theorem inv_step (hstep : step s = .next t) : t.Inv := by
  obtain ⟨-, rfl⟩ | ⟨f, rest, c, -, hd, rfl⟩ | ⟨f, rest, i, -, -, hresult⟩ := step_cases hstep
  · exact h
  · exact inv_reject (s := { s with input := rest }) h (decode_ne_noSchedule hd)
  · exact inv_commandResult (s := { s with input := rest }) h hresult

theorem inv_hostAct (a : HostAction) : (hostAct a s).Inv := by
  obtain ⟨hst, hout⟩ := h
  cases a with
  | send f => exact ⟨hst, hout⟩
  | receive => exact ⟨hst, fun r hr => hout r (List.mem_of_mem_drop hr)⟩
  | reset => exact ⟨legalStatus_zero, hout⟩

end

/-- Settles O40: a step of the core by the results it can have, a host action by its effect on `ST` and `OUT`. -/
theorem invariantKept : Obligations.InvariantKept := by
  intro e s t hinv h
  cases e with
  | core => exact inv_step hinv h
  | host a =>
    cases h
    exact inv_hostAct hinv a

/-- Settles O41: `ST` is 0 and there is no response. -/
theorem resetMeetsTheInvariant : Obligations.ResetMeetsTheInvariant :=
  ⟨legalStatus_zero, by simp⟩

end Sys2Proof.Machine
end

section
/-! SUPPORT. The status byte's fields, and what resets, steps and commands leave unchanged (10_state.md R21, R23, R24,
R27, R29). -/

namespace Sys2Proof.Laws

open Sys2Proof Sys2Proof.Machine

/-- The status byte is its four fields, each at its place (R24). -/
theorem status_toNat (st : Status) :
    st.toNat = (kstOf st).code.toNat + 4 * (faultOf st).toNat + 8 * (fcauseOf st).toNat + 32 * (reservedOf st).toNat := by
  revert st
  apply byte_forall
  decide +kernel

/-- A cause's code fits `FCAUSE`. -/
theorem code_setWidth_toNat (c : FaultCause) : (c.code.setWidth 2).toNat = c.code.toNat := by
  cases c <;> rfl

/-- Settles O20: the layout before a write and after it, and the fields the write keeps. -/
theorem statusByteLayout : Obligations.StatusByteLayout := by
  intro st
  have hst := status_toNat st
  refine ⟨hst, fun k => ?_, fun c => ?_⟩
  · have hk := status_toNat (setKst k st)
    simp only [kstOf_setKst, faultOf_setKst, fcauseOf_setKst, reservedOf_setKst] at hk
    omega
  · have hc := status_toNat (setFault c st)
    rw [kstOf_setFault, faultOf_setFault, fcauseOf_setFault, reservedOf_setFault, code_setWidth_toNat] at hc
    exact hc

/-- Settles O25: a reset writes `ST` and the registers without value, and every field of a zero byte is zero. -/
theorem resetClearsStatusKeepsStreams : Obligations.ResetClearsStatusKeepsStreams := by
  intro s
  rw [hostReset_st]
  exact ⟨rfl, kstOf_zero, faultOf_zero, fcauseOf_zero, reservedOf_zero, hostReset_tables s, hostReset_input s,
    hostReset_output s⟩

theorem reject_tables (c : FaultCause) (s : State) : (reject c s).tables = s.tables := by
  obtain ⟨st, h, -⟩ := reject_frame c s
  rw [h]

theorem commandResult_tables {i : Instr} {s t : State} (h : CommandResult i s t) : t.tables = s.tables := by
  cases h <;> rfl

theorem step_tables {s t : State} (h : step s = .next t) : t.tables = s.tables := by
  obtain ⟨-, rfl⟩ | ⟨f, rest, c, -, -, rfl⟩ | ⟨f, rest, i, -, -, hresult⟩ := step_cases h
  · rfl
  · exact reject_tables c { s with input := rest }
  · exact commandResult_tables (s := { s with input := rest }) hresult

theorem hostAct_tables (a : HostAction) (s : State) : (hostAct a s).tables = s.tables := by
  cases a <;> rfl

/-- Settles O43: no result of a step and no action of the host has other tables. -/
theorem tablesNeverChange : Obligations.TablesNeverChange := by
  intro e s t h
  cases e with
  | core => exact step_tables h
  | host a =>
    cases h
    exact hostAct_tables a s

/-- The store and `KST` stay, unless one of their writers ran without a fault (R23, R24). -/
theorem store_kept_or_written {i : Instr} {s t : State} (h : CommandResult i s t) :
    (t.rk = s.rk ∧ kstOf t.st = kstOf s.st) ∨ (writesStore i = true ∧ faultOf s.st = false) := by
  cases h with
  | discarded hfault => exact .inl ⟨rfl, rfl⟩
  | noSchedule hempty => exact .inl ⟨rfl, kstOf_setFault .noSchedule s.st⟩
  | wroteStore Q k acc w n hwrites hfault => exact .inr ⟨hwrites, hfault⟩
  | answeredBlock B acc n hblock => exact .inl ⟨rfl, rfl⟩
  | answered r hlength => exact .inl ⟨rfl, rfl⟩

/-- `BLK` stays, unless the command is one of the two that work on a block (R21). -/
theorem blk_kept_or_blockCommand {i : Instr} {s t : State} (h : CommandResult i s t) :
    t.blk = s.blk ∨ ∃ b, i = .enc b ∨ i = .dec b := by
  cases h with
  | discarded hfault => exact .inl rfl
  | noSchedule hempty => exact .inl rfl
  | wroteStore Q k acc w n hwrites hfault => exact .inl rfl
  | answeredBlock B acc n hblock => exact .inr hblock
  | answered r hlength => exact .inl rfl

/-- A step that changes the store or `KST` ran one of their writers, without a fault. -/
theorem writer_of_step_changes_store {s t : State} (h : step s = .next t)
    (hchange : t.rk ≠ s.rk ∨ kstOf t.st ≠ kstOf s.st) :
    ∃ f rest i, s.input = f :: rest ∧ decode f = .ok i ∧ writesStore i = true ∧ faultOf s.st = false := by
  have hnot : ¬(t.rk = s.rk ∧ kstOf t.st = kstOf s.st) := by rwa [not_and_or]
  obtain ⟨-, rfl⟩ | ⟨f, rest, c, -, -, rfl⟩ | ⟨f, rest, i, hs, hd, hresult⟩ := step_cases h
  · exact absurd ⟨rfl, rfl⟩ hnot
  · obtain ⟨st, hreject, hkst⟩ := reject_frame c { s with input := rest }
    rw [hreject] at hnot
    exact absurd ⟨rfl, hkst⟩ hnot
  · obtain hkept | ⟨hwrites, hfault⟩ := store_kept_or_written hresult
    · exact absurd hkept hnot
    · exact ⟨f, rest, i, hs, hd, hwrites, hfault⟩

/-- Settles O44, by the results a command and a step can have. -/
theorem storeAndBlockHaveTheirWriters : Obligations.StoreAndBlockHaveTheirWriters := by
  refine ⟨fun i s t h hreads => ?_, fun i s t h hblk => ?_, fun s t => writer_of_step_changes_store⟩
  · exact (store_kept_or_written (commandResult_of_exec h)).resolve_right (by simp [hreads])
  · exact (blk_kept_or_blockCommand (commandResult_of_exec h)).resolve_left hblk

end Sys2Proof.Laws
end

section
/-! SUPPORT. Bytes on the wire and in the flat images of the read-only memories (20_memory.md R52, R55). -/

namespace Sys2Proof.Laws

open Sys2Proof

/-- A payload of its format's length is decoded to the command with the operand it spells (R81, R83). -/
theorem decode_of_length (m : Mnemonic) {payload : List Byte} (h : payload.length + 1 = m.row.format.length) :
    decode (m.row.opcode :: payload) = .ok (assembleOperand payload m) := by
  rw [decode_opcode, if_pos h]

/-- Settles O5: the decoder assembles the operand with `ofBytes`, responses are made with `bytesOf`, and both put byte 0
first. -/
theorem wireOrderIsByteZeroFirst : Obligations.WireOrderIsByteZeroFirst := by
  refine ⟨fun l h => ?block, fun l h => ?key, fun l h => ?schedule,
    fun B j => ⟨blockBytes_length B, blockBytes_getD B j⟩,
    fun Q i j => ⟨scheduleBytes_length Q, scheduleBytes_getD Q i j⟩⟩
  case block =>
    have hlen := congrArg (· + 1) h
    exact ⟨ofBytes 128 l, decode_of_length .ENC hlen, decode_of_length .DEC hlen, byteAt_ofBytes l⟩
  case key =>
    have hlen := congrArg (· + 1) h
    exact ⟨ofBytes 256 l, decode_of_length .SCHF hlen, decode_of_length .SCHR hlen,
      fun j => extract_ofBytes l j (by omega), fun j => ⟨byteAt_keyLow l j, byteAt_keyHigh l j⟩⟩
  case schedule =>
    refine ⟨scheduleOfBytes l, decode_of_length .WRRK (congrArg (· + 1) h), fun i j => ?_⟩
    rw [scheduleOfBytes_get, byteAt_entryOfBytes]

/-! ### The flat images -/

/-- Byte `k` of the left half of an entry is byte `k` of its block. -/
theorem extract_left (h : Halves) (k : Fin 8) : h.l.extractLsb' (8 * k) 8 = byteAt (blk h) ⟨k, by omega⟩ := by
  rw [← extract_hl, hl_blk]

/-- Byte `k` of the right half of an entry is byte `8 + k` of its block. -/
theorem extract_right (h : Halves) (k : Fin 8) : h.r.extractLsb' (8 * k) 8 = byteAt (blk h) ⟨8 + k, by omega⟩ := by
  rw [← extract_hr, hr_blk]

/-- The two halves of a table entry, one after the other, are the 16 bytes of its block (R55). -/
theorem halvesBytes_eq (h : Halves) : bytesOf 8 h.l ++ bytesOf 8 h.r = blockBytes (blk h) := by
  apply List.ext_getElem (by simp)
  intro k _ hk
  rw [blockBytes_length] at hk
  simp only [blockBytes, bytesOf, List.getElem_append, List.getElem_map, List.getElem_range, List.length_map,
    List.length_range]
  split
  · next hlow => exact extract_left h ⟨k, hlow⟩
  · next hhigh =>
    have hsum : 8 + (k - 8) = k := by omega
    simpa only [byteAt, hsum] using extract_right h ⟨k - 8, by omega⟩

theorem imageLinear_eq (tables : Vector (Vector Halves 256) 16) :
    imageLinear tables = tables.toList.flatMap fun row => row.toList.flatMap fun h => blockBytes (blk h) := by
  simp only [imageLinear, halvesBytes_eq]

/-- The 16 bytes at `(p*256 + v)*16` are the block of entry `(p, v)` (R55). -/
theorem imageLinear_getD (tables : Vector (Vector Halves 256) 16) (p : Fin 16) (v : Byte) (k : Fin 16) :
    (imageLinear tables).getD ((p * 256 + v.toNat) * 16 + k) 0 = byteAt (blk ((tables[p])[v.toNat]'(v.isLt))) k := by
  have hrow : ∀ row : Vector Halves 256, (row.toList.flatMap fun h => blockBytes (blk h)).length = 4096 := by
    intro row
    simp only [List.length_flatMap, blockBytes_length, List.map_const', List.sum_replicate, Vector.length_toList]
    rfl
  have hoffset : (p * 256 + v.toNat) * 16 + (k : Nat) = 4096 * p + (16 * v.toNat + k) := by ring
  rw [imageLinear_eq, hoffset, flatMap_getD 4096 _ hrow tables.toList p _ (by simp) (by omega),
    flatMap_getD 16 _ (fun h => blockBytes_length (blk h)) _ v.toNat k (by simpa using v.isLt) k.isLt, blockBytes_getD]
  simp

/-- The left half of entry `(p, v)` stands at `hsel = 0` (R53, R55). -/
theorem imageLinear_left (tables : Vector (Vector Halves 256) 16) (p : Fin 16) (v : Byte) (k : Fin 8) :
    (imageLinear tables).getD (((p * 256 + v.toNat) * 2 + 0) * 8 + k) 0 =
      ((tables[p])[v.toNat]'(v.isLt)).l.extractLsb' (8 * k) 8 := by
  have hoffset : ((p * 256 + v.toNat) * 2 + 0) * 8 + (k : Nat) = (p * 256 + v.toNat) * 16 + k := by ring
  rw [hoffset, extract_left]
  exact imageLinear_getD tables p v ⟨k, by omega⟩

/-- The right half of entry `(p, v)` stands at `hsel = 1` (R53, R55). -/
theorem imageLinear_right (tables : Vector (Vector Halves 256) 16) (p : Fin 16) (v : Byte) (k : Fin 8) :
    (imageLinear tables).getD (((p * 256 + v.toNat) * 2 + 1) * 8 + k) 0 =
      ((tables[p])[v.toNat]'(v.isLt)).r.extractLsb' (8 * k) 8 := by
  have hoffset : ((p * 256 + v.toNat) * 2 + 1) * 8 + (k : Nat) = (p * 256 + v.toNat) * 16 + (8 + k) := by ring
  rw [hoffset, extract_right]
  exact imageLinear_getD tables p v ⟨8 + k, by omega⟩

theorem imageRC_getD (T : Tables) (c : Fin 32) (k : Fin 16) :
    (imageRC T).getD (16 * c + k) 0 = byteAt (readRC T c) k := by
  rw [imageRC, flatMap_getD 16 _ blockBytes_length T.rc.toList c k (by simp) k.isLt, blockBytes_getD]
  simp [readRC]

/-- Byte `v` of a 256-byte table's image is entry `v` (R55). -/
theorem byteVector_getD (table : Vector Byte 256) (v : Byte) :
    table.toList.getD v.toNat 0 = table[v.toNat]'(v.isLt) := by
  have hv := v.isLt
  simp [List.getD_eq_getElem?_getD, hv]

/-- Settles O7: one lemma per memory; `LTF` and `LTI` have the same layout. -/
theorem romImageLayout : Obligations.RomImageLayout := fun T =>
  ⟨fun v => ⟨byteVector_getD T.s v, byteVector_getD T.sinv v⟩,
    fun p v k => ⟨imageLinear_left T.ltf p v k, imageLinear_right T.ltf p v k, imageLinear_left T.lti p v k,
      imageLinear_right T.lti p v k⟩,
    fun p v k => ⟨imageLinear_getD T.ltf p v k, imageLinear_getD T.lti p v k⟩,
    imageRC_getD T⟩

end Sys2Proof.Laws
end

section
/-! SUPPORT. Maps of blocks that are linear over a field on the bytes: they are the 16×16 matrices (20_memory.md R57,
R58), and the standard's `M` is one of them (R64 to R67). -/

namespace Sys2Proof.Laws

open Sys2Proof

section
variable {mul : Byte → Byte → Byte} {one : Byte} (h : FieldProduct mul one)
include h

theorem fieldProduct_mul_zero (a : Byte) : mul a 0 = 0 := by
  simpa using h.distrib a 0 0

theorem fieldProduct_mul_one (a : Byte) : mul a one = a := by
  rw [h.comm, h.one_mul]

theorem fieldProduct_left_comm (a b c : Byte) : mul a (mul b c) = mul b (mul a c) := by
  rw [h.assoc, h.comm a b, ← h.assoc]

/-- A weighted sum of a vector's multiple is the multiple of the weighted sum. -/
theorem fieldSum_scale (v : Byte) (a b : Fin 16 → Byte) :
    fieldSum (fun p => mul (a p) (mul v (b p))) = mul v (fieldSum fun p => mul (a p) (b p)) := by
  simp only [fieldProduct_left_comm h _ v]
  exact fieldSum_map (h.distrib v) fun p => mul (a p) (b p)

/-- `e(p, v)` is `v` times `e(p, 1)`. -/
theorem scale_unitBlock (p : Fin 16) (v : Byte) : mapBytes (mul v) (unitBlock p one) = unitBlock p v := by
  apply block_ext
  intro k
  rw [byteAt_mapBytes, byteAt_unitBlock, byteAt_unitBlock, apply_ite (mul v), fieldProduct_mul_one h,
    fieldProduct_mul_zero h]

/-- A matrix applied to `e(p, v)` is its column `p` times `v`, in any presentation of the field. -/
theorem byteAt_matrixOver_unit (A : Fin 16 → Fin 16 → Byte) (p i : Fin 16) (v : Byte) :
    byteAt (matrixOver mul A (unitBlock p v)) i = mul (A i p) v := by
  simp only [byteAt_matrixOver, byteAt_unitBlock, apply_ite (mul _), fieldProduct_mul_zero h]
  exact fieldSum_single p fun q => mul (A i q) v

end

/-- `f` is linear over the field with product `mul`: it keeps sums and multiples of 16-byte vectors. -/
structure FieldLinear (mul : Byte → Byte → Byte) (f : Block → Block) : Prop where
  add : ∀ A B, f (X A B) = X (f A) (f B)
  scale : ∀ v B, f (mapBytes (mul v) B) = mapBytes (mul v) (f B)

namespace FieldLinear

variable {mul : Byte → Byte → Byte} {one : Byte} {f g : Block → Block}

theorem ofMatrix (h : FieldProduct mul one) (A : Fin 16 → Fin 16 → Byte) : FieldLinear mul (matrixOver mul A) where
  add := matrixOver_linear h.distrib A
  scale v B := by
    apply block_ext
    intro i
    simp only [byteAt_matrixOver, byteAt_mapBytes]
    exact fieldSum_scale h v (A i) (byteAt B)

theorem iterate (hf : FieldLinear mul f) (n : Nat) : FieldLinear mul f^[n] where
  add := Function.Semiconj₂.iterate hf.add n
  scale v := Function.Commute.iterate_left (hf.scale v) n

/-- The inverse of a linear map is linear. -/
theorem inverse (hf : FieldLinear mul f) (hgf : Function.LeftInverse g f) (hfg : Function.RightInverse g f) :
    FieldLinear mul g where
  add A B := by rw [← hgf (X (g A) (g B)), hf.add, hfg A, hfg B]
  scale v B := by rw [← hgf (mapBytes (mul v) (g B)), hf.scale, hfg B]

/-- Two linear maps that agree on the sixteen blocks `e(p, 1)` are equal. -/
theorem ext (h : FieldProduct mul one) (hf : FieldLinear mul f) (hg : FieldLinear mul g)
    (hunit : ∀ p, f (unitBlock p one) = g (unitBlock p one)) (B : Block) : f B = g B := by
  refine block_linear_ext hf.add hg.add (fun p v => ?_) B
  rw [← scale_unitBlock h, hf.scale, hg.scale, hunit]

end FieldLinear

/-- The matrix whose column `p` is the image of `e(p, 1)`. -/
def matrixOfMap (one : Byte) (f : Block → Block) (i p : Fin 16) : Byte := byteAt (f (unitBlock p one)) i

/-- Every linear map is a matrix. -/
theorem FieldLinear.eq_matrixOver {mul : Byte → Byte → Byte} {one : Byte} {f : Block → Block}
    (h : FieldProduct mul one) (hf : FieldLinear mul f) (B : Block) :
    f B = matrixOver mul (matrixOfMap one f) B := by
  refine hf.ext h (.ofMatrix h _) (fun p => block_ext fun i => ?_) B
  rw [byteAt_matrixOver_unit h, fieldProduct_mul_one h, matrixOfMap]

/-- Matrices whose maps compose to the identity have the identity matrix for product. -/
theorem matrix_product_eq_one {mul : Byte → Byte → Byte} {one : Byte} (h : FieldProduct mul one)
    {A C : Fin 16 → Fin 16 → Byte} (hAC : ∀ B, matrixOver mul A (matrixOver mul C B) = B) (i q : Fin 16) :
    fieldSum (fun p => mul (A i p) (C p q)) = if i = q then one else 0 := by
  have hbyte := congrArg (byteAt · i) (hAC (unitBlock q one))
  simpa only [byteAt_matrixOver _ A, byteAt_matrixOver_unit h, fieldProduct_mul_one h, byteAt_unitBlock] using hbyte

/-- Settles O47: `MINV`, as the inverse of a map linear over the field, is linear over it, so it is a matrix. -/
theorem contractMapsAreMatrices : Obligations.ContractMapsAreMatrices := by
  intro T mul one A MINV c
  have hfield := c.field
  have hM : FieldLinear mul (matrixOver mul A) := .ofMatrix hfield A
  have hMINV := (hM.inverse c.minv_m c.m_minv).eq_matrixOver hfield
  refine ⟨?zero, matrixOfMap one MINV, hMINV, ?right, ?left, fun p i v => ⟨?ltf, ?lti⟩⟩
  case zero => simpa using hM.add 0 0
  case right => exact matrix_product_eq_one hfield fun B => by rw [← hMINV, c.m_minv]
  case left => exact matrix_product_eq_one hfield fun B => by rw [← hMINV, c.minv_m]
  case ltf => rw [c.ltf, byteAt_matrixOver_unit hfield]
  case lti => rw [c.lti, hMINV, byteAt_matrixOver_unit hfield]

/-! ### The one-step map (R64) -/

/-- The weighted sum of bytes 0 to 14 in R64: all of `R`'s sum but byte 15, whose weight is 1. -/
def sumBelow15 (B : Block) : Byte := (positions.take 15).foldl (fun a p => a ^^^ gmul (LC p) (byteAt B p)) 0

theorem byteAt_stepR_zero (B : Block) : byteAt (stepR B) 0 = fieldSum fun p => gmul (LC p) (byteAt B p) :=
  byteAt_ofBytes _ 0

/-- Every other byte moves up one position. -/
theorem byteAt_stepR_succ (B : Block) (k : Fin 15) : byteAt (stepR B) k.succ = byteAt B k.castSucc := by
  rw [stepR, byteAt_ofBytes]
  fin_cases k <;> rfl

/-- Every byte moves down one position. -/
theorem byteAt_stepRInv_castSucc (B : Block) (k : Fin 15) : byteAt (stepRInv B) k.castSucc = byteAt B k.succ := by
  rw [stepRInv, byteAt_ofBytes]
  fin_cases k <;> rfl

/-- The bytes that moved stand, in the result, at positions 0 to 14. -/
theorem byteAt_stepRInv_last (B : Block) : byteAt (stepRInv B) 15 = byteAt B 0 ^^^ sumBelow15 (stepRInv B) := by
  have hmoved : sumBelow15 (stepRInv B) =
      (positions.take 15).foldl (fun a p => a ^^^ gmul (LC p) (byteAt B (p + 1))) 0 := by
    apply List.foldl_ext
    intro a p hp
    obtain ⟨k, rfl⟩ : ∃ k : Fin 15, k.castSucc = p := by
      revert p
      decide
    rw [byteAt_stepRInv_castSucc, Fin.coeSucc_eq_succ]
  rw [hmoved, stepRInv, byteAt_ofBytes]
  rfl

theorem byteAt_stepR_zero_eq (B : Block) : byteAt (stepR B) 0 = sumBelow15 B ^^^ byteAt B 15 := by
  rw [byteAt_stepR_zero, ← gmul_one (byteAt B 15)]
  rfl

theorem stepR_stepRInv (B : Block) : stepR (stepRInv B) = B := by
  apply block_ext
  intro k
  cases k using Fin.cases with
  | zero => rw [byteAt_stepR_zero_eq, byteAt_stepRInv_last, BitVec.xor_comm, BitVec.xor_assoc, BitVec.xor_self,
      BitVec.xor_zero]
  | succ k => rw [byteAt_stepR_succ, byteAt_stepRInv_castSucc]

/-- On a finite type a right inverse is a left inverse. -/
theorem stepRInv_stepR (B : Block) : stepRInv (stepR B) = B :=
  Function.LeftInverse.rightInverse_of_injective stepR_stepRInv
    (Finite.injective_iff_surjective.mpr (Function.RightInverse.surjective stepR_stepRInv)) B

theorem stepR_fieldLinear : FieldLinear gmul stepR where
  add A B := by
    apply block_ext
    intro k
    cases k using Fin.cases with
    | zero => simp only [byteAt_X, byteAt_stepR_zero, gmul_xor_right, fieldSum_xor]
    | succ k => simp only [byteAt_X, byteAt_stepR_succ]
  scale v B := by
    apply block_ext
    intro k
    cases k using Fin.cases with
    | zero =>
      simp only [byteAt_mapBytes, byteAt_stepR_zero]
      exact fieldSum_scale gmul_field v LC (byteAt B)
    | succ k => simp only [byteAt_mapBytes, byteAt_stepR_succ]

/-! ### The standard's matrices and round constants (R65 to R67) -/

theorem standardM_eq_iterate : standardM = stepR^[16] := by
  funext B
  exact List.foldl_const stepR B positions

theorem standardMINV_eq_iterate : standardMINV = stepRInv^[16] := by
  funext B
  exact List.foldl_const stepRInv B positions

theorem standardMINV_standardM (B : Block) : standardMINV (standardM B) = B := by
  rw [standardM_eq_iterate, standardMINV_eq_iterate]
  exact Function.LeftInverse.iterate stepRInv_stepR 16 B

/-- The sixteen columns of the listing `MM` (R65). -/
theorem standardM_unit : ∀ p, standardM (unitBlock p 1) = matrixTimes MM (unitBlock p 1) := by decide +kernel

theorem standardM_eq (B : Block) : standardM B = matrixTimes MM B :=
  FieldLinear.ext gmul_field (standardM_eq_iterate ▸ stepR_fieldLinear.iterate 16) (.ofMatrix gmul_field MM)
    standardM_unit B

/-- Both are the inverse of the same map. -/
theorem standardMINV_eq (B : Block) : standardMINV B = matrixTimes MMI B := by
  have hB := defaultTables_linearContractWith.m_minv B
  rw [← standardM_eq] at hB
  rw [← standardMINV_standardM (matrixTimes MMI B), hB]

/-- The listing of the round constants (R67). -/
theorem readRC_default :
    ∀ c : Fin 32, readRC defaultTables c = matrixTimes MM (unitBlock 15 (BitVec.ofNat 8 (c + 1))) := by decide +kernel

/-- Settles O8: the listings are checked on sixteen columns and 32 constants, linearity over the field does the rest. -/
theorem defaultMatricesAreSixteenSteps : Obligations.DefaultMatricesAreSixteenSteps :=
  ⟨fun B => ⟨stepRInv_stepR B, stepR_stepRInv B⟩, fun B => ⟨standardM_eq B, standardMINV_eq B⟩,
    fun c => (readRC_default c).trans (standardM_eq _).symm⟩

end Sys2Proof.Laws
end

section
/-! SUPPORT. The decoder and the encoder are inverse to each other, and which frames are commands (30_encoding.md R81 to
R85). -/

namespace Sys2Proof.Laws

open Sys2Proof Sys2Proof.Machine

/-- The frame of a command decodes to the command (R81, R83). -/
@[simp] theorem decode_encode (i : Instr) : decode (encode i) = .ok i := by
  have hlen : i.payload.length + 1 = i.mnemonic.row.format.length := by rw [payload_length, payloadLength_format]
  calc decode (encode i) = .ok (assembleOperand i.payload i.mnemonic) := decode_of_length i.mnemonic hlen
    _ = .ok i := by rw [assembleOperand_payload]

/-- A frame that decodes to a command is the frame of that command (R81, R85). -/
theorem encode_of_decode {f : Frame} {i : Instr} (h : decode f = .ok i) : encode i = f := by
  obtain ⟨payload, rfl, hlen, hi⟩ := decode_ok h
  have hpayload : i.payload = payload := by
    rw [hi]
    exact payload_assembleOperand payload i.mnemonic hlen
  rw [encode, hpayload]

/-- The legal opcodes are the seven of the map (R82). -/
theorem legal_opcode {op : Byte} (h : 0x01 ≤ op ∧ op ≤ 0x07) : ∃ m : Mnemonic, op = m.row.opcode := by
  obtain ⟨row, hrow⟩ := Option.isSome_iff_exists.mp ((opcodeRow?_isSome op).mpr h)
  obtain ⟨hm, hop⟩ := opcodeRow?_eq_some hrow
  exact ⟨row.mnemonic, by rw [← hm, hop]⟩

theorem opcode_legal (m : Mnemonic) : 0x01 ≤ m.row.opcode ∧ m.row.opcode ≤ 0x07 :=
  (opcodeRow?_isSome m.row.opcode).mp (by rw [opcodeRow?_opcode]; rfl)

/-- `LEN` of R86 is the length of the opcode's format. -/
@[simp] theorem frameLength_opcode (m : Mnemonic) : frameLength m.row.opcode = m.row.format.length := by
  cases m <;> rfl

/-- A frame with an illegal opcode, whatever its length (R85 b). -/
theorem decode_illegal {op : Byte} (h : ¬(0x01 ≤ op ∧ op ≤ 0x07)) (payload : List Byte) :
    decode (op :: payload) = .error .illegalOpcode := by
  have hrow : opcodeRow? op = none := by rwa [← opcodeRow?_isSome, Option.not_isSome_iff_eq_none] at h
  simp only [decode, hrow]

/-- A frame with the opcode of a command at another length than its format's (R85 c). -/
theorem decode_wrong_length (m : Mnemonic) {payload : List Byte} (h : payload.length + 1 ≠ m.row.format.length) :
    decode (m.row.opcode :: payload) = .error .sizeViolation := by
  rw [decode_opcode, if_neg h]

/-- Settles O1: the payload has its format's length, and the operand is read back from it. -/
theorem decodeInvertsEncode : Obligations.DecodeInvertsEncode :=
  fun i _ => decode_encode i

/-- Settles O2: the frame is an opcode and a payload of its format's length, and the operand is written as that payload. -/
theorem encodeInvertsDecode : Obligations.EncodeInvertsDecode :=
  fun _ _ => encode_of_decode

/-- Settles O3: the opcode decides whether the length is looked at. -/
theorem everyFrameIsACommandOrAFault : Obligations.EveryFrameIsACommandOrAFault := by
  refine ⟨rfl, fun op payload => ⟨fun hop => decode_illegal hop payload, fun hop hlen => ?_, fun hop hlen => ?_⟩⟩
  all_goals
    obtain ⟨m, rfl⟩ := legal_opcode hop
    rw [frameLength_opcode] at hlen
  · exact decode_wrong_length m hlen
  · have hdecode := decode_of_length m hlen
    exact ⟨_, hdecode, encode_of_decode hdecode⟩

/-- Settles O4: each frame has its format's length, and the two operands are computed from the payloads. -/
theorem spelledOutFramesDecode : Obligations.SpelledOutFramesDecode := by
  refine ⟨decode_of_length .RDRK rfl, decode_of_length .RDST rfl, (decode_of_length .ENC rfl).trans ?_,
    (decode_of_length .DEC rfl).trans ?_⟩
  · decide
  · decide

end Sys2Proof.Laws
end

section
/-! SUPPORT. What R86 makes of a frame, against what the decoder and the commands make of it: discard, fault entry, or the
effect of the command's rule (30_encoding.md R80, R84, R86; 60_exceptions.md R203, R206, R209). -/

namespace Sys2Proof.Machine

open Sys2Proof Sys2Proof.Laws

/-! ### The admission of a frame, by what it decodes to -/

/-- The only frame a faulted core looks at is the one of RDST (R209). -/
theorem admission_faulted {st : Status} (hf : faultOf st = true) (f : Frame) :
    admission st f = if f = encode .rdst then .run .rdst else .discard := by
  have hframe : (f.length = 1 ∧ f.head? = some 0x07) ↔ f = encode .rdst := by
    rw [List.length_eq_one_iff]
    constructor
    · rintro ⟨⟨op, rfl⟩, hop⟩
      rw [Option.some.inj hop]
      rfl
    · rintro rfl
      exact ⟨⟨0x07, rfl⟩, rfl⟩
  simp only [admission, hf, if_true, hframe]

/-- The tests of R86 on the opcode and the length are those of the decoder. -/
theorem admission_error {st : Status} (hf : faultOf st = false) {f : Frame} {c : FaultCause}
    (h : decode f = .error c) : admission st f = .raise c := by
  cases f with
  | nil =>
    cases h
    simp [admission, hf]
  | cons op payload =>
    by_cases hop : 0x01 ≤ op ∧ op ≤ 0x07
    · obtain ⟨m, rfl⟩ := legal_opcode hop
      by_cases hlen : payload.length + 1 = m.row.format.length
      · rw [decode_of_length m hlen] at h
        cases h
      · rw [decode_wrong_length m hlen] at h
        cases h
        simp only [admission, hf, hop, List.length_cons, frameLength_opcode, ne_eq, hlen, Bool.false_eq_true, and_self,
          not_true_eq_false, not_false_eq_true, if_true, if_false]
    · rw [decode_illegal hop] at h
      cases h
      simp only [admission, hf, hop, Bool.false_eq_true, not_false_eq_true, if_true, if_false]

/-- `commandOf` names the command of the opcode map. -/
theorem commandOf_opcode (m : Mnemonic) (payload : List Byte) :
    commandOf m.row.opcode payload = assembleOperand payload m := by
  cases m <;> rfl

/-- The opcodes R86 names in its last test are those of the commands that read the store (R203). -/
theorem readsStore_iff_opcode (i : Instr) :
    readsStore i = true ↔ i.opcode = 0x03 ∨ i.opcode = 0x04 ∨ i.opcode = 0x06 := by
  cases i <;> simp [readsStore, Instr.opcode, Instr.mnemonic, Mnemonic.row]

/-- Of a frame that decodes to a command only the store is still to be looked at. -/
theorem admission_ok {st : Status} (hf : faultOf st = false) {f : Frame} {i : Instr} (h : decode f = .ok i) :
    admission st f = if readsStore i = true ∧ kstOf st = .EMPTY then .raise .noSchedule else .run i := by
  obtain ⟨payload, rfl, hlen, hi⟩ := decode_ok h
  have hcommand : commandOf i.opcode payload = i := by
    rw [Instr.opcode, commandOf_opcode, ← hi]
  have hlegal : 0x01 ≤ i.opcode ∧ i.opcode ≤ 0x07 := opcode_legal i.mnemonic
  have hlength : (i.opcode :: payload).length = frameLength i.opcode := by
    rw [Instr.opcode, frameLength_opcode]
    exact hlen
  simp only [admission, hf, hlegal, hlength, hcommand, readsStore_iff_opcode, ne_eq, not_true_eq_false, and_self,
    if_false, Bool.false_eq_true]

/-! ### What a command does, by the status it finds -/

/-- Every command answers with a next state. -/
theorem exec_next (i : Instr) (s : State) : ∃ t, exec i s = .next t := by
  cases i <;> exact ⟨_, rfl⟩

/-- A faulted core discards every command but RDST (R209). -/
theorem exec_faulted {i : Instr} {s : State} (hf : faultOf s.st = true) (hi : i ≠ .rdst) : exec i s = .next s := by
  cases i with
  | schf key => exact congrArg Host.Outcome.next (command_faulted _ hf)
  | schr key => exact congrArg Host.Outcome.next (command_faulted _ hf)
  | enc block => exact congrArg Host.Outcome.next (storeCommand_faulted _ hf)
  | dec block => exact congrArg Host.Outcome.next (storeCommand_faulted _ hf)
  | wrrk schedule => exact congrArg Host.Outcome.next (command_faulted _ hf)
  | rdrk => exact congrArg Host.Outcome.next (storeCommand_faulted _ hf)
  | rdst => exact absurd rfl hi

/-- On an empty store a command that reads it raises `NoSchedule` (R203). -/
theorem exec_empty_store {i : Instr} {s : State} (hf : faultOf s.st = false) (hi : readsStore i = true)
    (hk : kstOf s.st = .EMPTY) : exec i s = .next (raiseFault .noSchedule s) := by
  cases i with
  | enc block => exact congrArg Host.Outcome.next (storeCommand_empty _ hf hk)
  | dec block => exact congrArg Host.Outcome.next (storeCommand_empty _ hf hk)
  | rdrk => exact congrArg Host.Outcome.next (storeCommand_empty _ hf hk)
  | schf key => cases hi
  | schr key => cases hi
  | wrrk schedule => cases hi
  | rdst => cases hi

/-- RDST has its effect whatever `ST` is (R182). -/
theorem exec_rdst (s : State) : exec .rdst s = .next (effect .rdst s) := rfl

/-- A command that is neither discarded nor without a store has the effect of its rule, with some value in the registers
that hold none after it (R22, R25). -/
theorem exec_effect {i : Instr} {s : State} (hf : faultOf s.st = false)
    (hk : readsStore i = true → kstOf s.st ≠ .EMPTY) :
    ∃ (a : Halves) (w : Scratch) (n : Nat), exec i s = .next { effect i s with acc := a, w := w, freeCount := n } := by
  cases i with
  | schf key =>
    refine ⟨Config.freeAcc s.freeCount, Config.freeScratch s.freeCount, s.freeCount + 1,
      congrArg Host.Outcome.next ((command_ok _ hf).trans ?_)⟩
    rw [opScheduleForward_fst]
    rfl
  | schr key =>
    refine ⟨Config.freeAcc s.freeCount, Config.freeScratch s.freeCount, s.freeCount + 1,
      congrArg Host.Outcome.next ((command_ok _ hf).trans ?_)⟩
    rw [opScheduleReverse_fst]
    rfl
  | enc block =>
    refine ⟨Config.freeAcc s.freeCount, s.w, s.freeCount + 1,
      congrArg Host.Outcome.next ((storeCommand_ok _ hf (hk rfl)).trans ?_)⟩
    rw [blockCommand_eq, opEncryptBlock_fst]
    rfl
  | dec block =>
    refine ⟨Config.freeAcc s.freeCount, s.w, s.freeCount + 1,
      congrArg Host.Outcome.next ((storeCommand_ok _ hf (hk rfl)).trans ?_)⟩
    rw [blockCommand_eq, opDecryptBlock_fst]
    rfl
  | wrrk schedule => exact ⟨s.acc, s.w, s.freeCount, congrArg Host.Outcome.next (command_ok _ hf)⟩
  | rdrk => exact ⟨s.acc, s.w, s.freeCount, congrArg Host.Outcome.next (storeCommand_ok _ hf (hk rfl))⟩
  | rdst => exact ⟨s.acc, s.w, s.freeCount, exec_rdst s⟩

/-! ### The step -/

/-- Settles O28: a faulted core by `admission_faulted`, a frame that is no command by `admission_error`, a command by
`admission_ok` and what it does. -/
theorem stepFollowsTheDecoderPseudocode : Obligations.StepFollowsTheDecoderPseudocode := by
  intro s f rest hs
  cases hf : faultOf s.st with
  | true =>
    rw [admission_faulted hf]
    split_ifs with hrdst
    · exact ⟨s.acc, s.w, s.freeCount, (step_ok hs (hrdst ▸ decode_encode .rdst)).trans (exec_rdst _)⟩
    · cases hd : decode f with
      | error c => exact (step_error hs hd).trans (congrArg Host.Outcome.next (reject_faulted c hf))
      | ok i =>
        have hi : i ≠ .rdst := by
          rintro rfl
          exact hrdst (encode_of_decode hd).symm
        exact (step_ok hs hd).trans (exec_faulted hf hi)
  | false =>
    cases hd : decode f with
    | error c =>
      rw [admission_error hf hd]
      exact (step_error hs hd).trans (congrArg Host.Outcome.next (reject_ok c hf))
    | ok i =>
      rw [admission_ok hf hd, step_ok hs hd]
      split_ifs with hempty
      · exact exec_empty_store hf hempty.1 hempty.2
      · exact exec_effect (s := { s with input := rest }) hf fun hreads hk => hempty ⟨hreads, hk⟩

/-- Settles O27, by `step_ok`. -/
theorem stepRunsTheDecodedCommand : Obligations.StepRunsTheDecodedCommand :=
  fun _ _ _ _ => step_ok

/-- A step waits, rejects a frame or executes a command, and each of these has a next state. -/
theorem step_next (s : State) : ∃ t, step s = .next t := by
  cases hs : s.input with
  | nil => exact ⟨s, step_nil hs⟩
  | cons f rest =>
    cases hd : decode f with
    | error c => exact ⟨_, step_error hs hd⟩
    | ok i =>
      rw [step_ok hs hd]
      exact exec_next i _

/-- Settles O29: `step_next`, and with `IN` empty the step that waits. -/
theorem everyStepHasANextState : Obligations.EveryStepHasANextState :=
  fun s => ⟨step_next s, step_nil⟩

/-! ### The responses -/

theorem effect_output_of_none {i : Instr} (h : responseLength i = none) (s : State) :
    (effect i s).output = s.output := by
  cases i with
  | schf key => rfl
  | schr key => rfl
  | wrrk schedule => rfl
  | enc block => cases h
  | dec block => cases h
  | rdrk => cases h
  | rdst => cases h

/-- The response of a command has the length its row gives (R84). -/
theorem effect_output_of_some {i : Instr} {n : Nat} (h : responseLength i = some n) (s : State) :
    ∃ r : Frame, r.length = n ∧ (effect i s).output = s.output ++ [r] := by
  cases i with
  | enc block =>
    cases h
    exact ⟨_, blockBytes_length _, rfl⟩
  | dec block =>
    cases h
    exact ⟨_, blockBytes_length _, rfl⟩
  | rdrk =>
    cases h
    exact ⟨_, scheduleBytes_length _, rfl⟩
  | rdst =>
    cases h
    exact ⟨_, rfl, rfl⟩
  | schf key => cases h
  | schr key => cases h
  | wrrk schedule => cases h

/-- Settles O38: a command that runs has its rule's effect on `OUT`, one that is discarded or raises `NoSchedule` none. -/
theorem oneResponsePerAnsweredCommand : Obligations.OneResponsePerAnsweredCommand := by
  intro i s
  obtain ⟨t, ht⟩ := exec_next i s
  have answer {u : State} (hu : exec i s = .next u) : t = u := by
    rw [hu] at ht
    cases ht
    rfl
  refine ⟨t, ht, fun hf hk => ?_, fun hf hi => answer (exec_faulted hf hi), fun hf hi hk => ?_⟩
  · obtain ⟨a, w, n, hu⟩ := exec_effect hf hk
    rw [answer hu]
    split
    next hnone => exact effect_output_of_none hnone s
    next hsome => exact effect_output_of_some hsome s
  · rw [answer (exec_empty_store hf hi hk), raiseFault_output]

end Sys2Proof.Machine
end

section
/-! SUPPORT. The assembler reads back the lines R88 and R89 write: the words of a line, the digits of an operand, and
the commands they spell. -/

namespace Sys2Proof.Laws

open Sys2Proof Sys2Proof.Machine

/-! ### Words -/

/-- A character that is part of a word: no blank, no comma, no semicolon (R88, log 14). -/
def IsWordChar (c : Char) : Prop := c ≠ ';' ∧ ¬(c = ' ' ∨ c = '\t') ∧ c ≠ ','

/-- The characters of a word are read into the word. -/
theorem wordsOf_append {l : List Char} (h : ∀ c ∈ l, IsWordChar c) (word rest : List Char) :
    wordsOf word (l ++ rest) = wordsOf (word ++ l) rest := by
  induction l generalizing word with
  | nil => simp
  | cons c cs ih =>
    obtain ⟨hsemicolon, hblank, hcomma⟩ := h c List.mem_cons_self
    rw [List.cons_append, wordsOf, if_neg hsemicolon, if_neg hblank, if_neg hcomma,
      ih fun d hd => h d (List.mem_cons_of_mem c hd), List.append_assoc, List.singleton_append]

section
variable {word : List Char} (h : ∀ c ∈ word, IsWordChar c) (hne : word ≠ [])
include h hne

/-- A word at the end of a line. -/
theorem wordsOf_word : wordsOf [] word = [word] := by
  have hread := wordsOf_append h [] []
  rw [List.append_nil, List.nil_append] at hread
  rw [hread, wordsOf, endWord, if_neg hne]

/-- A word before a blank. -/
theorem wordsOf_blank (rest : List Char) : wordsOf [] (word ++ ' ' :: rest) = word :: wordsOf [] rest := by
  rw [wordsOf_append h, List.nil_append, wordsOf, if_neg (by decide), if_pos (by decide), endWord, if_neg hne]

/-- A word before a comma, which is a word of its own, and a blank. -/
theorem wordsOf_comma (rest : List Char) :
    wordsOf [] (word ++ ',' :: ' ' :: rest) = word :: [','] :: wordsOf [] rest := by
  rw [wordsOf_append h, List.nil_append, wordsOf, if_neg (by decide), if_neg (by decide), if_pos rfl, endWord,
    if_neg hne, wordsOf, if_neg (by decide), if_pos (by decide), endWord, if_pos rfl]

end

/-! ### Hexadecimal digits -/

theorem hexValue_hexDigit : ∀ n < 16, hexValue (hexDigit n) = some n := by decide

theorem hexDigit_isWordChar : ∀ n < 16, IsWordChar (hexDigit n) := by
  unfold IsWordChar
  decide

theorem hexText_isWord (bytes : List Byte) : ∀ c ∈ hexText bytes, IsWordChar c := by
  intro c hc
  obtain ⟨b, -, hb⟩ := List.mem_flatMap.mp hc
  simp only [List.mem_cons, List.not_mem_nil, or_false] at hb
  obtain rfl | rfl := hb
  · exact hexDigit_isWordChar _ (by omega)
  · exact hexDigit_isWordChar _ (by omega)

theorem hexText_ne_nil {bytes : List Byte} (h : bytes ≠ []) : hexText bytes ≠ [] := by
  cases bytes with
  | nil => exact absurd rfl h
  | cons b bs => simp [hexText]

/-- The digits of a byte sequence are read back as the sequence (R88). -/
@[simp] theorem hexBytes_hexText (bytes : List Byte) : hexBytes (hexText bytes) = some bytes := by
  induction bytes with
  | nil => rfl
  | cons b bs ih =>
    have hhigh : hexValue (hexDigit (b.toNat / 16)) = some (b.toNat / 16) := hexValue_hexDigit _ (by omega)
    have hlow : hexValue (hexDigit (b.toNat % 16)) = some (b.toNat % 16) := hexValue_hexDigit _ (by omega)
    have hbyte : BitVec.ofNat 8 (16 * (b.toNat / 16) + b.toNat % 16) = b := by
      rw [Nat.div_add_mod, BitVec.ofNat_toNat, BitVec.setWidth_eq]
    change hexBytes (hexDigit (b.toNat / 16) :: hexDigit (b.toNat % 16) :: hexText bs) = some (b :: bs)
    simp only [hexBytes, hhigh, hlow, ih, hbyte]

theorem hexOperand_hexText {n : Nat} {bytes : List Byte} (h : bytes.length = n) :
    hexOperand n (hexText bytes) = some bytes := by
  simp only [hexOperand, hexBytes_hexText, if_pos h]

/-! ### Command lines -/

theorem mnemonicText_isWord (m : Mnemonic) : ∀ c ∈ m.text, IsWordChar c := by
  cases m <;> simp [Mnemonic.text, IsWordChar]

theorem mnemonicText_ne_nil (m : Mnemonic) : m.text ≠ [] := by
  cases m <;> decide

@[simp] theorem mnemonicOf_text (m : Mnemonic) : mnemonicOf m.text = some m := by
  cases m <;> rfl

/-- A line that begins with a mnemonic is read as a command line. -/
theorem parseLine_mnemonic {text : List Char} {m : Mnemonic} {operands : List (List Char)}
    (h : wordsOf [] text = m.text :: operands) : parseLine text = (parseCommand m.text operands).map .command := by
  cases m <;> simp [parseLine, h, Mnemonic.text]

/-- Only format Z has no payload (R81). -/
theorem format_of_length_one {k : Format} (h : k.length = 1) : k = .Z := by
  cases k with
  | Z => rfl
  | B => cases h
  | K => cases h
  | S => cases h

/-- A mnemonic without operand (format Z). -/
theorem parseCommand_bare {m : Mnemonic} (h : m.row.format = .Z) :
    parseCommand m.text [] = some (assembleOperand [] m) := by
  simp only [parseCommand, mnemonicOf_text, if_pos h]

/-- A mnemonic and the digits of an operand of its format's length. -/
theorem parseCommand_operand {m : Mnemonic} {bytes : List Byte} (hne : bytes ≠ [])
    (h : bytes.length + 1 = m.row.format.length) :
    parseCommand m.text [hexText bytes] = some (assembleOperand bytes m) := by
  have hoperand : hexOperand (m.row.format.length - 1) (hexText bytes) = some bytes := hexOperand_hexText (by omega)
  have hformat : m.row.format ≠ .Z := by
    intro hz
    rw [hz, Format.length] at h
    exact hne (List.length_eq_zero_iff.mp (Nat.succ.inj h))
  -- `hformat` rules out the pattern of format Z.
  simp only [parseCommand, mnemonicOf_text, hoperand]

/-- The line of a command without payload. -/
theorem text_of_payload_nil {i : Instr} (h : i.payload = []) : i.text = i.mnemonic.text := by
  simp only [Instr.text, h]

/-- The line of a command with a payload. -/
theorem text_of_payload_ne_nil {i : Instr} (h : i.payload ≠ []) :
    i.text = i.mnemonic.text ++ ' ' :: hexText i.payload := by
  unfold Instr.text
  split
  next hnil => exact absurd hnil h
  next => rfl

/-- The line of a command is read back as the command (R88). -/
theorem parseLine_text (i : Instr) : parseLine i.text = some (.command i) := by
  have hword := mnemonicText_isWord i.mnemonic
  have hne := mnemonicText_ne_nil i.mnemonic
  have hlen : i.payload.length + 1 = i.mnemonic.row.format.length := by rw [payload_length, payloadLength_format]
  have hi : assembleOperand i.payload i.mnemonic = i := assembleOperand_payload i
  by_cases hp : i.payload = []
  · have hz : i.mnemonic.row.format = .Z := format_of_length_one (by rw [← hlen, hp]; rfl)
    rw [hp] at hi
    rw [text_of_payload_nil hp, parseLine_mnemonic (wordsOf_word hword hne), parseCommand_bare hz, hi]
    rfl
  · have hwords : wordsOf [] i.text = [i.mnemonic.text, hexText i.payload] := by
      rw [text_of_payload_ne_nil hp, wordsOf_blank hword hne, wordsOf_word (hexText_isWord _) (hexText_ne_nil hp)]
    rw [parseLine_mnemonic hwords, parseCommand_operand hp hlen, hi]
    rfl

/-- Settles O45: the words are the mnemonic and, unless the payload is empty, its digits. -/
theorem assemblerReadsCommandLines : Obligations.AssemblerReadsCommandLines :=
  fun i => ⟨parseLine_text i, rfl⟩

/-! ### Pseudo-instructions -/

/-- The words of a line with a name, a key and a block. -/
theorem wordsOf_pair {name : List Char} (hname : ∀ c ∈ name, IsWordChar c) (hne : name ≠ []) (key : MasterKey)
    (block : Block) :
    wordsOf [] (name ++ [' '] ++ hexText (bytesOf 32 key) ++ [',', ' '] ++ hexText (blockBytes block)) =
      [name, hexText (bytesOf 32 key), [','], hexText (blockBytes block)] := by
  have hkey : bytesOf 32 key ≠ [] := List.ne_nil_of_length_eq_add_one (bytesOf_length 32 key)
  have hblock : blockBytes block ≠ [] := List.ne_nil_of_length_eq_add_one (blockBytes_length block)
  simp only [List.append_assoc, List.cons_append, List.nil_append]
  rw [wordsOf_blank hname hne, wordsOf_comma (hexText_isWord _) (hexText_ne_nil hkey),
    wordsOf_word (hexText_isWord _) (hexText_ne_nil hblock)]

theorem parsePair_hexText (line : MasterKey → Block → AsmLine) (key : MasterKey) (block : Block) :
    parsePair line (hexText (bytesOf 32 key)) (hexText (blockBytes block)) = some (line key block) := by
  simp only [parsePair, hexOperand_hexText (bytesOf_length 32 key), hexOperand_hexText (blockBytes_length block),
    ofBytes_bytesOf 32 key rfl, ofBytes_blockBytes]

theorem parseLine_kenc {text key block : List Char} (h : wordsOf [] text = [['K', 'E', 'N', 'C'], key, [','], block]) :
    parseLine text = parsePair .kenc key block := by
  simp only [parseLine, h]

theorem parseLine_kdec {text key block : List Char} (h : wordsOf [] text = [['K', 'D', 'E', 'C'], key, [','], block]) :
    parseLine text = parsePair .kdec key block := by
  simp only [parseLine, h]

/-- Settles O46: the words of the two lines with operands by `wordsOf_pair`, their operands by `parsePair_hexText`. -/
theorem pseudoInstructionsExpand : Obligations.PseudoInstructionsExpand := by
  refine ⟨fun key block => ?kenc, fun key block => ?kdec, rfl⟩
  case kenc =>
    have hwords := wordsOf_pair (name := ['K', 'E', 'N', 'C']) (by simp [IsWordChar]) (by simp) key block
    exact congrArg (Option.map AsmLine.actions) ((parseLine_kenc hwords).trans (parsePair_hexText .kenc key block))
  case kdec =>
    have hwords := wordsOf_pair (name := ['K', 'D', 'E', 'C']) (by simp [IsWordChar]) (by simp) key block
    exact congrArg (Option.map AsmLine.actions) ((parseLine_kdec hwords).trans (parsePair_hexText .kdec key block))

end Sys2Proof.Laws
end

section
/-! SUPPORT. The primitives: exclusive-or by halves, lookup transforms byte by byte in any order, the identities between
the transforms, which maps of blocks are bijections, and which tables each function reads (40_primitives.md R110 to
R119; 41_key_schedule.md R140, R144; 42_block_engine.md R160, R162). -/

namespace Sys2Proof.Laws

open Sys2Proof

/-! ### Exclusive-or (R110) -/

theorem hl_X (A B : Block) : hl (X A B) = hl A ^^^ hl B := BitVec.extractLsb'_xor

theorem hr_X (A B : Block) : hr (X A B) = hr A ^^^ hr B := BitVec.extractLsb'_xor

/-- Settles O9, by the laws of `X`; the rule's example is evaluated. -/
theorem blockXorLaws : Obligations.BlockXorLaws :=
  ⟨byteAt_X, fun A B => ⟨hl_X A B, hr_X A B⟩, fun A => ⟨X_self A, X_zero A⟩,
    fun A B => ⟨X_comm A B, X_X_cancel A B⟩, X_assoc, by decide⟩

/-! ### Lookups in any order (R113, R114, R119) -/

/-- Reading a byte commutes with the accumulation, and accumulation does not depend on the order of the positions. -/
theorem byteAt_lookupXor_of_perm (entry : Fin 16 → Byte → Halves) (B : Block) (k : Fin 16) {ps : List (Fin 16)}
    (h : ps.Perm positions) :
    byteAt (blk (lookupXor entry B)) k = ps.foldl (fun a p => a ^^^ byteAt (blk (entry p (byteAt B p))) k) 0 := by
  have hbyte : byteAt (blk ⟨0, 0⟩) k = 0 := byteAt_zero k
  calc byteAt (blk (lookupXor entry B)) k
    _ = positions.foldl (fun a p => a ^^^ byteAt (blk (entry p (byteAt B p))) k) 0 := by
        rw [← hbyte, lookupXor]
        exact (List.foldl_hom (fun a => byteAt (blk a) k) fun a p => by rw [blk_xor, byteAt_X]).symm
    _ = ps.foldl (fun a p => a ^^^ byteAt (blk (entry p (byteAt B p))) k) 0 :=
        h.symm.foldl_eq' (fun p _ q _ a => by ac_rfl) 0

/-- Settles O10: `SUB` and `ISUB` by their byte lanes, `LS` and `ILS` as lookups over a permutation of the positions. -/
theorem transformsFollowTheirTables : Obligations.TransformsFollowTheirTables := fun T B k =>
  ⟨byteAt_SUB T B k, byteAt_ISUB T B k, fun _ h =>
    ⟨byteAt_lookupXor_of_perm (readLTF T) B k h, byteAt_lookupXor_of_perm (readLTI T) B k h⟩⟩

/-! ### The identities between the transforms (R116) -/

section
variable {T : Tables} {M MINV : Block → Block} (c : T.LinearContractWith M MINV)
include c

theorem MINV_LS (B : Block) : MINV (LS T B) = SUB T B := by
  rw [LS_eq c, c.minv_m]

theorem ILS_SUB_linear (A B : Block) : ILS T (SUB T (X A B)) = X (ILS T (SUB T A)) (ILS T (SUB T B)) := by
  simp only [ILS_SUB c, minv_linear c]

theorem ILS_SUB_LS (B : Block) : ILS T (SUB T (LS T B)) = SUB T B := by
  rw [ILS_SUB c, MINV_LS c]

theorem ISUB_ILS_SUB_LS (B : Block) : ISUB T (ILS T (SUB T (LS T B))) = B := by
  rw [ILS_SUB_LS c, ISUB_SUB c]

theorem MINV_X_ISUB (Y K : Block) : MINV (X (ISUB T Y) K) = X (ILS T Y) (MINV K) := by
  rw [minv_linear c, ILS_eq c]

end

/-- Settles O11: identity by identity. -/
theorem transformIdentities : Obligations.TransformIdentities := fun _T _M _MINV c A B K Y =>
  ⟨⟨LS_eq c B, ILS_eq c B⟩, ⟨ILS_SUB c B, LS_ISUB c B⟩, ⟨minv_linear c A B, ILS_SUB_linear c A B⟩,
    ⟨MINV_LS c B, ILS_SUB_LS c B, ISUB_ILS_SUB_LS c B⟩, MINV_X_ISUB c Y K, (ILS_SUB c K).symm⟩

/-! ### Bijections on blocks (R111, R113, R160, R162) -/

/-- A key XOR undoes itself. -/
theorem X_key_bijective (K : Block) : Function.Bijective (X · K) :=
  Function.Involutive.bijective fun A => X_X_cancel A K

/-- A sequence of rounds, each a bijection, is a bijection. -/
theorem foldl_bijective {α β : Type} {f : β → α → β} (h : ∀ a, Function.Bijective (f · a)) (l : List α) :
    Function.Bijective fun b => l.foldl f b := by
  induction l with
  | nil => exact Function.bijective_id
  | cons a l ih => exact ih.comp (h a)

section
variable {T : Tables} {M MINV : Block → Block} (c : T.LinearContractWith M MINV)
include c

theorem SUB_bijective : Function.Bijective (SUB T) :=
  Function.bijective_iff_has_inverse.mpr ⟨ISUB T, ISUB_SUB c, SUB_ISUB c⟩

theorem ISUB_bijective : Function.Bijective (ISUB T) :=
  Function.bijective_iff_has_inverse.mpr ⟨SUB T, SUB_ISUB c, ISUB_SUB c⟩

theorem LS_bijective : Function.Bijective (LS T) := by
  have hM : Function.Bijective M := Function.bijective_iff_has_inverse.mpr ⟨MINV, c.minv_m, c.m_minv⟩
  rw [funext (LS_eq c)]
  exact hM.comp (SUB_bijective c)

theorem ILS_bijective : Function.Bijective (ILS T) := by
  have hMINV : Function.Bijective MINV := Function.bijective_iff_has_inverse.mpr ⟨M, c.m_minv, c.minv_m⟩
  rw [funext (ILS_eq c)]
  exact hMINV.comp (ISUB_bijective c)

/-- One round of R160. -/
theorem encryptRound_bijective (K : Block) : Function.Bijective fun B => LS T (X B K) :=
  (LS_bijective c).comp (X_key_bijective K)

/-- One iteration of step 3 of R162. -/
theorem decryptRound_bijective (K : Block) : Function.Bijective fun B => X (ILS T B) K :=
  (X_key_bijective K).comp (ILS_bijective c)

theorem encryptBlock_bijective (Q : Schedule) : Function.Bijective (encryptBlock T Q) :=
  (X_key_bijective Q[9]).comp (foldl_bijective (fun r : Fin 10 => encryptRound_bijective c Q[r]) encryptRounds)

theorem decryptBlock_bijective (Q : Schedule) : Function.Bijective (decryptBlock T Q) := by
  have hfirst := (ILS_bijective c).comp ((SUB_bijective c).comp (X_key_bijective Q[9]))
  have hrounds := foldl_bijective (fun i : Fin 10 => decryptRound_bijective c Q[i]) decryptRounds
  have hall := (X_key_bijective Q[0]).comp ((ISUB_bijective c).comp (hrounds.comp hfirst))
  -- Written out, the composition is the body of `decryptBlock`; comparing it folded would unfold `ISUB`.
  simp only [Function.comp_def] at hall
  exact hall

end

/-- Settles O12: each function is a composition of bijections. -/
theorem transformsAreBijections : Obligations.TransformsAreBijections := fun _T ⟨_M, _MINV, c⟩ =>
  ⟨SUB_bijective c, ISUB_bijective c, LS_bijective c, ILS_bijective c,
    fun Q => ⟨encryptBlock_bijective c Q, decryptBlock_bijective c Q⟩⟩

/-! ### The tables each function reads (R117, R140, R144, R160, R162) -/

section
variable {T U : Tables}

theorem SUB_congr (hs : T.s = U.s) : SUB T = SUB U := by
  have hread : readS T = readS U := funext fun v => by simp only [readS, hs]
  funext B
  rw [SUB, SUB, hread]

theorem ISUB_congr (hsinv : T.sinv = U.sinv) : ISUB T = ISUB U := by
  have hread : readSINV T = readSINV U := funext fun v => by simp only [readSINV, hsinv]
  funext B
  rw [ISUB, ISUB, hread]

theorem LS_congr (hltf : T.ltf = U.ltf) : LS T = LS U := by
  have hread : readLTF T = readLTF U := funext₂ fun p v => by simp only [readLTF, hltf]
  funext B
  rw [LS, LS, hread]

theorem ILS_congr (hlti : T.lti = U.lti) : ILS T = ILS U := by
  have hread : readLTI T = readLTI U := funext₂ fun p v => by simp only [readLTI, hlti]
  funext B
  rw [ILS, ILS, hread]

theorem FEISTEL_congr (hltf : T.ltf = U.ltf) (hrc : T.rc = U.rc) : FEISTEL T = FEISTEL U := by
  funext c p
  simp only [FEISTEL, LS_congr hltf, readRC, hrc]

theorem scheduleForward_congr (hltf : T.ltf = U.ltf) (hrc : T.rc = U.rc) : scheduleForward T = scheduleForward U := by
  have hpair : derivePair T = derivePair U := funext₂ fun j p => by simp only [derivePair, FEISTEL_congr hltf hrc]
  funext K
  simp only [scheduleForward, hpair]

end

/-- Settles O13: each function is written with transforms that read the named tables only. -/
theorem functionsReadOnlyTheirTables : Obligations.FunctionsReadOnlyTheirTables := by
  refine fun T U => ⟨fun hltf hrc K => ?forward, fun hltf hrc hs hlti K => ?reverse, fun hltf Q P => ?encrypt,
    fun hs hsinv hlti Q C => ?decrypt⟩
  case forward => rw [scheduleForward_congr hltf hrc]
  case reverse => simp only [scheduleReverse, scheduleForward_congr hltf hrc, SUB_congr hs, ILS_congr hlti]
  case encrypt => simp only [encryptBlock, LS_congr hltf]
  case decrypt => simp only [decryptBlock, SUB_congr hs, ISUB_congr hsinv, ILS_congr hlti]

end Sys2Proof.Laws
end

section
/-! SUPPORT. The key schedule: the constant counter that runs on over all four pairs, one Feistel round and its inverse,
the reverse schedule entry by entry and the way back from it, and the two schedule commands (41_key_schedule.md R140 to
R147). -/

namespace Sys2Proof.Laws

open Sys2Proof Sys2Proof.Machine

/-! ### The constant counter (R140, R142) -/

/-- Rounds with a counter that starts at `c`: round `t` uses constant `c + t`, and the counter ends at `c + n`. -/
theorem iterate_countedFeistel (T : Tables) (n : Nat) (p : Block × Block) (c : Nat) :
    (countedFeistel T)^[n] (p, c) = ((List.range n).foldl (fun p t => FEISTEL T (Fin.ofNat 32 (c + t)) p) p, c + n) := by
  induction n with
  | zero => rfl
  | succ n ih =>
    rw [Function.iterate_succ_apply', ih, countedFeistel, List.range_succ, List.foldl_append, Nat.add_assoc]
    rfl

/-- The counter of pair `j` at round `t` of it (R142). -/
theorem ofNat_eq_constantIndex : ∀ (j : Fin 4) (t : Fin 8), Fin.ofNat 32 (8 * j + t) = constantIndex j t := by decide

/-- Eight rounds of the counter derive pair `j`, when the counter has run over the `j` pairs before. -/
theorem iterate_countedFeistel_pair (T : Tables) (j : Fin 4) (p : Block × Block) :
    (countedFeistel T)^[8] (p, 8 * j.val) = (derivePair T j p, 8 * (j.val + 1)) := by
  have hrounds : List.range 8 = rounds.map Fin.val := rfl
  simp only [iterate_countedFeistel, hrounds, List.foldl_map, ofNat_eq_constantIndex, derivePair, Nat.mul_succ]

theorem countedPair_eq (T : Tables) (j : Fin 4) (ps : List (Block × Block)) (p : Block × Block) :
    countedPair T (ps ++ [p], 8 * j.val) = (ps ++ [p] ++ [derivePair T j p], 8 * (j.val + 1)) := by
  simp only [countedPair, List.getLastD_concat, iterate_countedFeistel_pair]

/-- The five pairs of the forward schedule, with the counter at 32 after the last. -/
theorem countedSchedule_eq (T : Tables) (K : MasterKey) :
    let p0 := (keyLow K, keyHigh K)
    let p1 := derivePair T 0 p0
    let p2 := derivePair T 1 p1
    let p3 := derivePair T 2 p2
    let p4 := derivePair T 3 p3
    countedSchedule T K = ([p0, p1, p2, p3, p4], 32) := by
  intro p0 p1 p2 p3 p4
  calc countedSchedule T K
    _ = (countedPair T)^[3] ([p0, p1], 8) := congrArg (countedPair T)^[3] (countedPair_eq T 0 [] p0)
    _ = (countedPair T)^[2] ([p0, p1, p2], 16) := congrArg (countedPair T)^[2] (countedPair_eq T 1 [p0] p1)
    _ = countedPair T ([p0, p1, p2, p3], 24) := congrArg (countedPair T) (countedPair_eq T 2 [p0, p1] p2)
    _ = ([p0, p1, p2, p3, p4], 32) := countedPair_eq T 3 [p0, p1, p2] p3

/-- Settles O14, by `countedSchedule_eq`. -/
theorem constantCounterRunsOn : Obligations.ConstantCounterRunsOn := by
  intro T K
  rw [countedSchedule_eq]
  exact ⟨rfl, rfl⟩

/-! ### One Feistel round (R141) -/

/-- Settles O17: the registers by `opFEISTEL_w`; in the inverse `LS` is applied to the same block again and cancels. -/
theorem feistelRound : Obligations.FeistelRound := by
  intro T c d
  refine ⟨opFEISTEL_w T c d, ?_⟩
  simp only [opFEISTEL_w, X_X_cancel]

/-! ### The reverse schedule, entry by entry (R144, R146, R147) -/

/-- A loop that transforms the entries of a list without repetition in place. -/
theorem foldl_set_get (f : Block → Block) {is : List (Fin 10)} (h : is.Nodup) (Q : Schedule) (k : Fin 10) :
    (is.foldl (fun (Q : Schedule) (i : Fin 10) => Q.set i (f Q[i])) Q)[k] = if k ∈ is then f Q[k] else Q[k] := by
  induction is generalizing Q with
  | nil => rfl
  | cons i is ih =>
    obtain ⟨hi, his⟩ := List.nodup_cons.mp h
    rw [List.foldl_cons, ih his]
    by_cases hk : k = i
    · subst hk
      simp [hi]
    · have hne : (i : Nat) ≠ k := fun e => hk (Fin.ext e.symm)
      simp [hk, hne]

theorem mem_transformedEntries : ∀ i : Fin 10, i ∈ transformedEntries ↔ 1 ≤ i ∧ i ≤ 8 := by decide

theorem scheduleReverse_get (T : Tables) (K : MasterKey) (i : Fin 10) :
    (scheduleReverse T K)[i] =
      if 1 ≤ i ∧ i ≤ 8 then ILS T (SUB T (scheduleForward T K)[i]) else (scheduleForward T K)[i] := by
  simp only [← mem_transformedEntries]
  exact foldl_set_get (fun B => ILS T (SUB T B)) (by decide) (scheduleForward T K) i

/-- Settles O15, by `scheduleReverse_get`. -/
theorem keyScheduleStability : Obligations.KeyScheduleStability := by
  refine fun T K => ⟨fun i hi => ?ends, fun i h1 h8 => ?inner⟩
  case ends =>
    have hout : ¬(1 ≤ i ∧ i ≤ 8) := by
      rcases hi with rfl | rfl <;> decide
    rw [scheduleReverse_get, if_neg hout]
  case inner => rw [scheduleReverse_get, if_pos ⟨h1, h8⟩]

theorem LS_ISUB_ILS_SUB {T : Tables} {M MINV : Block → Block} (c : T.LinearContractWith M MINV) (B : Block) :
    LS T (ISUB T (ILS T (SUB T B))) = B := by
  rw [LS_ISUB c, ILS_SUB c, c.m_minv]

/-- Entries 1 and 0 of the forward schedule are the halves of the key (R140, R147). -/
theorem scheduleForward_key (T : Tables) (K : MasterKey) : (scheduleForward T K)[1] ++ (scheduleForward T K)[0] = K :=
  keyHigh_append_keyLow K

/-- Settles O16: the transform of entries 1 to 8 is undone by `LS_ISUB_ILS_SUB`. -/
theorem forwardScheduleIsRecoverable : Obligations.ForwardScheduleIsRecoverable := by
  rintro T ⟨M, MINV, c⟩ K
  obtain ⟨hends, hinner⟩ := keyScheduleStability T K
  have hrecover (i : Fin 10) (h1 : 1 ≤ i) (h8 : i ≤ 8) :
      (scheduleForward T K)[i] = LS T (ISUB T (scheduleReverse T K)[i]) := by
    rw [hinner i h1 h8, LS_ISUB_ILS_SUB c]
  have hkey := (scheduleForward_key T K).symm
  refine ⟨hrecover, fun i hi => (hends i hi).symm, hkey, ?_⟩
  have h0 : (scheduleReverse T K)[0] = (scheduleForward T K)[0] := hends 0 (.inl rfl)
  have h1 : (scheduleForward T K)[1] = LS T (ISUB T (scheduleReverse T K)[1]) := hrecover 1 (by decide) (by decide)
  rwa [h1, ← h0] at hkey

/-! ### On the registers (R140, R144, R160, R162) -/

/-- Settles O18, function by function. -/
theorem datapathComputesThePureFunctions : Obligations.DatapathComputesThePureFunctions := fun T K RK Q B d =>
  ⟨opScheduleForward_fst T K RK d, opScheduleReverse_fst T K RK d, opEncryptBlock_fst T Q B d,
    opDecryptBlock_fst T Q B d⟩

/-! ### The schedule commands (R143, R145) -/

/-- A command's opcode with a payload of `n` bytes, the length of its format, is the command; with any other payload it is
a size violation (R85). -/
theorem decode_by_length (m : Mnemonic) {n : Nat} (hn : m.row.format.length = n + 1) (payload : List Byte) :
    (payload.length = n → decode (m.row.opcode :: payload) = .ok (assembleOperand payload m)) ∧
    (payload.length ≠ n → decode (m.row.opcode :: payload) = .error .sizeViolation) := by
  constructor <;> intro h
  · exact decode_of_length m (by omega)
  · exact decode_wrong_length m (by omega)

/-- Settles O30: the effect of R143 by `exec_effect`, the frames by `decode_by_length`. -/
theorem schfWritesTheForwardSchedule : Obligations.SchfWritesTheForwardSchedule :=
  ⟨fun key _ hf => exec_effect (i := .schf key) hf nofun, decode_by_length .SCHF rfl⟩

/-- Settles O31: the effect of R145 by `exec_effect`, the frames by `decode_by_length`. -/
theorem schrWritesTheReverseSchedule : Obligations.SchrWritesTheReverseSchedule :=
  ⟨fun key _ hf => exec_effect (i := .schr key) hf nofun, decode_by_length .SCHR rfl⟩

end Sys2Proof.Laws
end

section
/-! SUPPORT. The block engine: what a block command answers (42_block_engine.md R161, R163), and decryption under the
reverse schedule inverts encryption under the forward one, as functions and as commands (R165, R166). -/

namespace Sys2Proof.Laws

open Sys2Proof Sys2Proof.Machine

/-! ### The block commands (R161, R163) -/

/-- A block command whose transform computes the pure function `f`, on a store that holds a schedule: `f` of the block
is left in `BLK` and emitted. -/
theorem exec_blockCommand {i : Instr} {transform : Tables → Schedule → Block → Datapath → Block × Datapath}
    {f : Tables → Schedule → Block → Block} {block : Block} {s : State}
    (hexec : exec i s = .next (storeCommand s (blockCommand transform block)))
    (hcomputes : ∀ T Q B d, (transform T Q B d).1 = f T Q B) (hf : faultOf s.st = false) (hk : kstOf s.st ≠ .EMPTY) :
    ∃ (a : Halves) (n : Nat), exec i s = .next { s with
      blk := f s.tables s.rk block, output := s.output ++ [blockBytes (f s.tables s.rk block)],
      acc := a, freeCount := n } := by
  refine ⟨Config.freeAcc s.freeCount, s.freeCount + 1, ?_⟩
  rw [hexec, storeCommand_ok _ hf hk, blockCommand_eq, hcomputes]

/-- Settles O32: the result by `exec_blockCommand`, the trap by `exec_empty_store`, the frames by `decode_by_length`. -/
theorem encEmitsTheEncryptedBlock : Obligations.EncEmitsTheEncryptedBlock :=
  ⟨fun _ _ hf hk => exec_blockCommand rfl opEncryptBlock_fst hf hk, fun _ _ hf hk => exec_empty_store hf rfl hk,
    decode_by_length .ENC rfl⟩

/-- Settles O33: the result by `exec_blockCommand`, the trap by `exec_empty_store`, the frames by `decode_by_length`. -/
theorem decEmitsTheDecryptedBlock : Obligations.DecEmitsTheDecryptedBlock :=
  ⟨fun _ _ hf hk => exec_blockCommand rfl opDecryptBlock_fst hf hk, fun _ _ hf hk => exec_empty_store hf rfl hk,
    decode_by_length .DEC rfl⟩

/-! ### Decryption inverts encryption, as functions (R165, R166) -/

section
variable {T : Tables} {M MINV : Block → Block} (c : T.LinearContractWith M MINV)
include c

/-- A decryption round with the transformed key takes `SUB` of a round's input to `SUB` of the input of the round
before: `ILS` after `SUB` is linear, so the two images of the key cancel. -/
theorem decryptRound_SUB (Y K : Block) : X (ILS T (SUB T (X (LS T Y) K))) (ILS T (SUB T K)) = SUB T Y := by
  rw [ILS_SUB_linear c, X_X_cancel, ILS_SUB_LS c]

/-- The decryption rounds over transformed keys, in reverse order, undo the encryption rounds after the first. -/
theorem decryptRounds_undo_encryptRounds {Q DQ : Schedule} {rs : List (Fin 10)}
    (hkeys : ∀ r ∈ rs, DQ[r] = ILS T (SUB T Q[r])) (Y : Block) :
    rs.reverse.foldl (fun (B : Block) (i : Fin 10) => X (ILS T B) DQ[i])
      (ILS T (SUB T (rs.foldl (fun (B : Block) (r : Fin 10) => LS T (X B Q[r])) (LS T Y)))) = SUB T Y := by
  induction rs generalizing Y with
  | nil => exact ILS_SUB_LS c Y
  | cons r rs ih =>
    obtain ⟨hr, hrs⟩ := List.forall_mem_cons.mp hkeys
    simp only [List.reverse_cons, List.foldl_append, List.foldl_cons, List.foldl_nil]
    rw [ih hrs, hr, decryptRound_SUB c]

/-- Decryption inverts encryption under any two schedules that agree in entries 0 and 9 and of which the second holds
the transformed keys of the first in entries 1 to 8. -/
theorem decryptBlock_encryptBlock {Q DQ : Schedule} (h0 : DQ[0] = Q[0]) (h9 : DQ[9] = Q[9])
    (hkeys : ∀ r ∈ transformedEntries, DQ[r] = ILS T (SUB T Q[r])) (P : Block) :
    decryptBlock T DQ (encryptBlock T Q P) = P := by
  have hdec : decryptRounds = transformedEntries.reverse := rfl
  have henc : encryptRounds = 0 :: transformedEntries := rfl
  rw [decryptBlock, encryptBlock, h0, h9, X_X_cancel, hdec, henc, List.foldl_cons,
    decryptRounds_undo_encryptRounds c hkeys, ISUB_SUB c]
  exact X_X_cancel P Q[0]

theorem decryptBlock_scheduleReverse (K : MasterKey) (P : Block) :
    decryptBlock T (scheduleReverse T K) (encryptBlock T (scheduleForward T K) P) = P := by
  obtain ⟨hends, hinner⟩ := keyScheduleStability T K
  refine decryptBlock_encryptBlock c (hends 0 (.inl rfl)) (hends 9 (.inr rfl)) (fun r hr => ?_) P
  obtain ⟨h1, h8⟩ := (mem_transformedEntries r).mp hr
  exact hinner r h1 h8

end

/-! ### A schedule command and a block command, run one after the other (R166) -/

theorem core_run_succ {s t : State} (h : step s = .next t) (k : Nat) :
    Sys2Proof.core.run (k + 1) s = Sys2Proof.core.run k t := by
  have hcore : Sys2Proof.core.step s = .next t := h
  simp only [Host.Core.run, hcore]

/-- Two command frames are executed in the order in which they stand in `IN`. -/
theorem core_run_two {s t u : State} {i j : Instr} (hi : exec i { s with input := [encode j] } = .next t)
    (ht : t.input = [encode j]) (hj : exec j { t with input := [] } = .next u) :
    Sys2Proof.core.run 2 { s with input := [encode i, encode j] } = .next u := by
  have h1 : step { s with input := [encode i, encode j] } = .next t := (step_ok rfl (decode_encode i)).trans hi
  have h2 : step t = .next u := (step_ok ht (decode_encode j)).trans hj
  exact (core_run_succ h1 1).trans (core_run_succ h2 0)

/-- A command that writes the schedule `Q` of `K` and then one that answers with `f` of `B` under the store. -/
theorem run_schedule_block {i j : Instr} {k : ScheduleKind} {Q : Tables → MasterKey → Schedule}
    {f : Tables → Schedule → Block → Block} {K : MasterKey} {B : Block} (hk : k ≠ .EMPTY)
    (hi : ∀ s : State, faultOf s.st = false → ∃ (a : Halves) (w : Scratch) (n : Nat), exec i s = .next { s with
      rk := Q s.tables K, st := setKst k s.st, acc := a, w := w, freeCount := n })
    (hj : ∀ s : State, faultOf s.st = false → kstOf s.st ≠ .EMPTY → ∃ (a : Halves) (n : Nat),
      exec j s = .next { s with
        blk := f s.tables s.rk B, output := s.output ++ [blockBytes (f s.tables s.rk B)], acc := a, freeCount := n })
    {s : State} (hs : faultOf s.st = false) :
    ∃ t : State, Sys2Proof.core.run 2 { s with input := [encode i, encode j] } = .next t ∧ t.tables = s.tables ∧
      faultOf t.st = false ∧ t.output = s.output ++ [blockBytes (f s.tables (Q s.tables K) B)] := by
  have hst : faultOf (setKst k s.st) = false := (faultOf_setKst k s.st).trans hs
  obtain ⟨a, w, n, h1⟩ := hi { s with input := [encode j] } hs
  obtain ⟨a', n', h2⟩ := hj { s with
    rk := Q s.tables K, st := setKst k s.st, acc := a, w := w, freeCount := n, input := [] } hst
    (by rwa [kstOf_setKst])
  exact ⟨_, core_run_two h1 rfl h2, rfl, hst, rfl⟩

/-- Settles O39: the functions by `decryptBlock_scheduleReverse`, each pair of commands by `run_schedule_block`. -/
theorem roundTrip : Obligations.RoundTrip := by
  refine ⟨fun T ⟨_, _, c⟩ K P => decryptBlock_scheduleReverse c K P, fun s K P ⟨_, _, c⟩ hs => ?_⟩
  obtain ⟨t, hrun, htables, ht, hout⟩ := run_schedule_block (k := .FWD) nofun (schfWritesTheForwardSchedule.1 K)
    (encEmitsTheEncryptedBlock.1 P) hs
  refine ⟨t, encryptBlock s.tables (scheduleForward s.tables K) P, hrun, hout, ?_⟩
  obtain ⟨u, hrun', -, -, hout'⟩ := run_schedule_block (k := .REV) nofun (schrWritesTheReverseSchedule.1 K)
    (decEmitsTheDecryptedBlock.1 (encryptBlock s.tables (scheduleForward s.tables K) P)) ht
  rw [htables, decryptBlock_scheduleReverse c] at hout'
  exact ⟨u, hrun', hout'⟩

end Sys2Proof.Laws
end

section
/-! SUPPORT. Round-key transfer and status (43_transfer_status.md R180 to R182): what WRRK and RDRK do, the frames of a
command without operand, and the values a legal status can have. -/

namespace Sys2Proof.Laws

open Sys2Proof Sys2Proof.Machine

/-! ### The round-key store in and out (R180, R181) -/

/-- WRRK has the whole effect of its rule: it leaves no register without value. -/
theorem exec_wrrk (Q : Schedule) {s : State} (hf : faultOf s.st = false) :
    exec (.wrrk Q) s = .next (effect (.wrrk Q) s) :=
  congrArg Host.Outcome.next (command_ok _ hf)

/-- RDRK has the whole effect of its rule: it leaves no register without value. -/
theorem exec_rdrk {s : State} (hf : faultOf s.st = false) (hk : kstOf s.st ≠ .EMPTY) :
    exec .rdrk s = .next (effect .rdrk s) :=
  congrArg Host.Outcome.next (storeCommand_ok _ hf hk)

/-- Format Z is one byte, so a command of this format has no payload (R81, R85 c). -/
theorem decode_payload_of_format_Z {m : Mnemonic} (hm : m.row.format = .Z) {payload : List Byte} (h : payload ≠ []) :
    decode (m.row.opcode :: payload) = .error .sizeViolation :=
  (decode_by_length m (congrArg Format.length hm) payload).2 (mt List.length_eq_zero_iff.mp h)

/-- Settles O34: the effect by `exec_wrrk`, the frames by `decode_by_length`. -/
theorem wrrkWritesTheStore : Obligations.WrrkWritesTheStore :=
  ⟨fun Q _ hf => exec_wrrk Q hf, decode_by_length .WRRK rfl⟩

/-- Settles O35: the effect by `exec_rdrk`, the trap by `exec_empty_store`, the frames by the length of format Z. -/
theorem rdrkEmitsTheStore : Obligations.RdrkEmitsTheStore :=
  ⟨fun _ => exec_rdrk, fun _ hf hk => exec_empty_store hf rfl hk, decode_encode .rdrk,
    fun _ => decode_payload_of_format_Z (m := .RDRK) rfl⟩

/-- Settles O37: the response of RDRK is the payload of the frame `encode (.wrrk s.rk)`. -/
theorem readOutScheduleWritesBack : Obligations.ReadOutScheduleWritesBack := fun s hf hk =>
  ⟨effect .rdrk s, scheduleBytes s.rk, exec_rdrk hf hk, rfl, decode_encode (.wrrk s.rk)⟩

/-! ### The values of a legal status (R24, R182) -/

/-- The four fields of R24 make up the whole byte. -/
theorem status_ext {a b : Status} (hk : kstOf a = kstOf b) (hf : faultOf a = faultOf b)
    (hc : fcauseOf a = fcauseOf b) (hr : reservedOf a = reservedOf b) : a = b := by
  apply BitVec.eq_of_toNat_eq
  rw [status_toNat a, status_toNat b, hk, hf, hc, hr]

/-- Every nonzero value of `FCAUSE` is the code of a cause (R200). -/
theorem exists_cause_of_ne_zero {x : BitVec 2} (hx : x ≠ 0) : ∃ c : FaultCause, c.code.setWidth 2 = x := by
  have hcases : x = 1 ∨ x = 2 ∨ x = 3 := by
    revert x
    decide
  rcases hcases with rfl | rfl | rfl
  · exact ⟨.illegalOpcode, rfl⟩
  · exact ⟨.sizeViolation, rfl⟩
  · exact ⟨.noSchedule, rfl⟩

/-- A legal status without a fault is its `KST` and nothing else. -/
theorem legalStatus_unfaulted {st : Status} (h : legalStatus st) (hf : faultOf st = false) :
    st = setKst (kstOf st) 0 := by
  obtain ⟨hreserved, hcause, -⟩ := h
  have hzero : fcauseOf st = 0 := by simpa [hf] using hcause
  apply status_ext
  · rw [kstOf_setKst]
  · rw [faultOf_setKst, hf, faultOf_zero]
  · rw [fcauseOf_setKst, hzero, fcauseOf_zero]
  · rw [reservedOf_setKst, hreserved, reservedOf_zero]

/-- A legal status with a fault is its `KST` and the entry of a cause, which is `NoSchedule` only on an empty store. -/
theorem legalStatus_faulted {st : Status} (h : legalStatus st) (hf : faultOf st = true) :
    ∃ c, st = setFault c (setKst (kstOf st) 0) ∧ (c = .noSchedule → kstOf st = .EMPTY) := by
  obtain ⟨hreserved, hcause, hempty⟩ := h
  obtain ⟨c, hc⟩ := exists_cause_of_ne_zero (hcause.mp hf)
  refine ⟨c, ?_, ?_⟩
  · apply status_ext
    · rw [kstOf_setFault, kstOf_setKst]
    · rw [faultOf_setFault, hf]
    · rw [fcauseOf_setFault, hc]
    · rw [reservedOf_setFault, reservedOf_setKst, hreserved, reservedOf_zero]
  · rintro rfl
    exact hempty hc.symm

/-- The response values R182 lists. -/
def statusValues : List Status :=
  [0x00, 0x01, 0x02, 0x03, 0x0c, 0x0d, 0x0e, 0x0f, 0x14, 0x15, 0x16, 0x17, 0x1c]

theorem legalStatus_mem_statusValues {st : Status} (h : legalStatus st) : st ∈ statusValues := by
  cases hf : faultOf st with
  | false =>
    rw [legalStatus_unfaulted h hf]
    cases kstOf st <;> decide
  | true =>
    obtain ⟨c, hst, hempty⟩ := legalStatus_faulted h hf
    rw [hst]
    cases c with
    | illegalOpcode => cases kstOf st <;> decide
    | sizeViolation => cases kstOf st <;> decide
    | noSchedule =>
      rw [hempty rfl]
      decide

/-! ### RDST (R182) -/

/-- The status after a frame the decoder rejects, with and without a fault before it. -/
theorem reject_eq (c : FaultCause) (s : State) :
    reject c s = { s with st := if faultOf s.st = true then s.st else setFault c s.st } := by
  cases hf : faultOf s.st with
  | true => exact reject_faulted c hf
  | false => exact reject_ok c hf

/-- Settles O36: the effect by `exec_rdst`, a frame with a payload by `reject_eq`, the values of the status by
`legalStatus_mem_statusValues`. -/
theorem rdstEmitsTheStatus : Obligations.RdstEmitsTheStatus := by
  refine ⟨exec_rdst, decode_encode .rdst, fun s payload rest hpayload hs => ?_,
    fun s ⟨hst, _⟩ => legalStatus_mem_statusValues hst⟩
  have hdecode := decode_payload_of_format_Z (m := .RDST) rfl hpayload
  exact (step_error hs hdecode).trans (congrArg Host.Outcome.next (reject_eq _ _))

end Sys2Proof.Laws
end

section
/-! SUPPORT. Faults: what the entry of one changes, what a faulted core still does, and why nothing but reset ends the
faulted state (60_exceptions.md R203, R207 to R209). -/

namespace Sys2Proof.Machine

open Sys2Proof Sys2Proof.Laws

/-! ### Fault entry (R203, R207) -/

/-- A frame for which R86 raises a fault has no effect but the fault's entry in `ST`. -/
theorem step_of_admission_raise {s : State} {f : Frame} {rest : List Frame} {c : FaultCause} (hs : s.input = f :: rest)
    (hadmission : admission s.st f = .raise c) : step s = .next { s with input := rest, st := setFault c s.st } := by
  have h := stepFollowsTheDecoderPseudocode s f rest hs
  rwa [hadmission] at h

/-- Settles O21: the step by `step_of_admission_raise`, the fields of `ST` after it by `setFault_fields`. -/
theorem faultEntry : Obligations.FaultEntry := fun s _ _ c hs hadmission =>
  ⟨step_of_admission_raise hs hadmission, setFault_fields c s.st⟩

/-- Settles O24, by `exec_empty_store`. -/
theorem noScheduleBeforeUse : Obligations.NoScheduleBeforeUse := fun _ _ hreads hf hk =>
  exec_empty_store hf hreads hk

/-! ### The faulted core (R209) -/

/-- RDST is executed whatever `ST` is (R182, R209). -/
theorem step_rdst {s : State} {rest : List Frame} (hs : s.input = encode .rdst :: rest) :
    step s = .next { s with input := rest, output := s.output ++ [[s.st]] } :=
  (step_ok hs (decode_encode .rdst)).trans (exec_rdst _)

/-- A faulted core removes every frame but the one of RDST and does nothing else. -/
theorem step_faulted_discards {s : State} {f : Frame} {rest : List Frame} (hf : faultOf s.st = true)
    (hs : s.input = f :: rest) (hrdst : f ≠ encode .rdst) : step s = .next { s with input := rest } := by
  have h := stepFollowsTheDecoderPseudocode s f rest hs
  rwa [admission_faulted hf, if_neg hrdst] at h

/-- Settles O22: the frame of RDST by `step_rdst`, any other by `step_faulted_discards`. -/
theorem faultedCoreAnswersOnlyStatus : Obligations.FaultedCoreAnswersOnlyStatus := by
  intro s f rest hf hs
  constructor
  · rintro rfl
    exact step_rdst hs
  · exact step_faulted_discards hf hs

/-! ### No way out but reset (R208) -/

/-- A faulted core waits, answers RDST or discards a frame: none of these writes `ST`. -/
theorem step_faulted_st {s t : State} (hf : faultOf s.st = true) (h : step s = .next t) : t.st = s.st := by
  cases hs : s.input with
  | nil =>
    cases (step_nil hs).symm.trans h
    rfl
  | cons f rest =>
    by_cases hrdst : f = encode .rdst
    · cases (step_rdst (hrdst ▸ hs)).symm.trans h
      rfl
    · cases (step_faulted_discards hf hs hrdst).symm.trans h
      rfl

/-- Reset is the one host action that writes `ST`. -/
theorem hostAct_st {a : HostAction} (ha : a ≠ .reset) (s : State) : (hostAct a s).st = s.st := by
  cases a with
  | send f => rfl
  | receive => rfl
  | reset => exact absurd rfl ha

theorem systemStep_faulted_st {e : Event} {s t : State} (hf : faultOf s.st = true) (he : e ≠ .host .reset)
    (h : systemStep e s = .next t) : t.st = s.st := by
  cases e with
  | core => exact step_faulted_st hf h
  | host a =>
    cases h
    exact hostAct_st (fun ha => he (congrArg Event.host ha)) s

/-- Settles O23: every other event keeps `ST` by `systemStep_faulted_st`, a reset clears it. -/
theorem onlyResetLeavesTheFaultedState : Obligations.OnlyResetLeavesTheFaultedState := by
  refine ⟨fun e s t h hf he => ?_, fun s t h => ?_⟩
  · have hst := systemStep_faulted_st hf he h
    exact ⟨hst ▸ hf, hst⟩
  · cases h
    exact ⟨hostReset_st s, kstOf_zero⟩

end Sys2Proof.Machine
end

section
/-! SUPPORT. What a reset forgets, and how many operations each cipher command performs (70_reset_and_hazards.md R230,
R241). -/

namespace Sys2Proof.Machine

open Sys2Proof Sys2Proof.Laws

/-! ### After a reset (R230) -/

/-- Of two states' pasts a reset leaves only `TABLES` and the streams: `ST` is cleared, so the stores are empty and need
not agree. -/
theorem hostReset_indistinguishable_of_streams_eq {s t : State} (htables : s.tables = t.tables)
    (hinput : s.input = t.input) (houtput : s.output = t.output) : Indistinguishable (hostReset s) (hostReset t) :=
  ⟨htables, rfl, hinput, houtput, fun hk => absurd kstOf_zero hk⟩

/-- Settles O26: the two states after the reset are indistinguishable, so no run tells them apart (O42). -/
theorem resetForgetsThePast : Obligations.ResetForgetsThePast := by
  intro s t htables hinput houtput es
  have hreset := hostReset_indistinguishable_of_streams_eq htables hinput houtput
  obtain ⟨s', t', hs, ht, -, hresponses⟩ := hiddenRegistersNeverShow es _ _ hreset
  exact ⟨s', t', hs, ht, hresponses⟩

end Sys2Proof.Machine

namespace Sys2Proof.Laws

open Sys2Proof

/-! ### Operation counts (R241): the counts of the loops and of the single operations around them, added up -/

/-- Nine rounds, and the last key's XOR (R160). -/
theorem opEncryptBlock_ops (T : Tables) (Q : Schedule) (P : Block) (d : Datapath) :
    (opEncryptBlock T Q P d).2.ops = d.ops.add ⟨9, 0, 288, 0, 0, 0, 0, 10⟩ := by
  simp only [opEncryptBlock, opX_ops, (foldl_opEncryptRound T Q _ _ _).2, OpCounts_add_assoc]
  rfl

/-- The first key's XOR with `SUB` and ILS, eight rounds, then `ISUB` and the last key's XOR (R162). -/
theorem opDecryptBlock_ops (T : Tables) (Q : Schedule) (C : Block) (d : Datapath) :
    (opDecryptBlock T Q C d).2.ops = d.ops.add ⟨0, 9, 0, 288, 16, 16, 0, 10⟩ := by
  simp only [opDecryptBlock, opX_ops, opSUB_ops, opILS_ops, opISUB_ops, (foldl_opDecryptRound T Q _ _ _).2,
    OpCounts_add_assoc]
  rfl

/-- One derived pair: eight Feistel rounds (R140). -/
theorem opDerivePair_ops (T : Tables) (x : Schedule × Datapath) (j : Fin 4) :
    (opDerivePair T x j).2.ops = x.2.ops.add ⟨8, 0, 256, 0, 0, 0, 8, 16⟩ :=
  (opDerivePair_step T x.1 x.2 j).2

/-- Four derived pairs (R140). -/
theorem opScheduleForward_ops (T : Tables) (K : MasterKey) (RK : Schedule) (d : Datapath) :
    (opScheduleForward T K RK d).2.ops = d.ops.add ⟨32, 0, 1024, 0, 0, 0, 32, 64⟩ := by
  simp only [opScheduleForward, pairs, List.foldl_cons, List.foldl_nil, opDerivePair_ops, OpCounts_add_assoc]
  rfl

/-- The forward schedule, and eight transformed keys (R144). -/
theorem opScheduleReverse_ops (T : Tables) (K : MasterKey) (RK : Schedule) (d : Datapath) :
    (opScheduleReverse T K RK d).2.ops = d.ops.add ⟨32, 8, 1024, 256, 128, 0, 32, 64⟩ := by
  rw [opScheduleReverse, (foldl_opTransformKey T _ _ _).2, opScheduleForward_ops, OpCounts_add_assoc]
  rfl

/-- Settles O19, row by row of the table of R241. -/
theorem operationCounts : Obligations.OperationCounts := fun T K RK Q B d =>
  ⟨opEncryptBlock_ops T Q B d, opDecryptBlock_ops T Q B d, opScheduleForward_ops T K RK d,
    opScheduleReverse_ops T K RK d⟩

end Sys2Proof.Laws
end
